-- ==== Sys2Proof/Word.lean ====
section
/-! DEFINITION. The word types of LINCK (00_scope.md R7, R10, R11): every value is unsigned, bit 0 is the least
significant bit. -/

namespace Sys2Proof

/-- An 8-bit unsigned value: the accumulator, a result, an operand, a protected identifier (R7). -/
abbrev Byte := BitVec 8

/-- A command word, `cmd[15:0]` (R7, R61). -/
abbrev Word := BitVec 16

/-- A frame identifier, and so an address of `PIDTAB` (R7, R40). -/
abbrev Fid := BitVec 6

end Sys2Proof
end

