-- ==== Sys2Proof/Config.lean ====
section
/-! DEFINITION. The implementation parameters of 00_scope.md R7 that a definition reads. LINCK leaves no value
open (10_state.md R29), so there is no free value here; `HOST_BINDING` is read by no rule (20_memory.md R45). -/

namespace Sys2Proof.Config

/-- `HAS_PDEC = 1`: the Protected-ID Decoder is present (00_scope.md R2, R7). A variant without it takes `OP = 0x7`
as illegal (93_implementation_defined.md U3). -/
def hasPdec : Bool := true

/-- The longest byte list of a pseudo-instruction (00_scope.md R7, 30_encoding.md R75). -/
def maxListLength : Nat := 255

/-- The cause code of `IllegalCommand` (60_exceptions.md R180). -/
def illegalCommandCode : Nat := 1

/-- The cause code that means no error (60_exceptions.md R180). -/
def noErrorCode : Nat := 0

end Sys2Proof.Config
end

