-- ==== Sys2Proof/Syntax.lean ====
section
/-! DEFINITION. What can be written for LINCK: its seven commands (30_encoding.md R63), their mnemonics, the
pseudo-instructions (R74), and the lines and tokens of an assembler source (R70, R71). -/

namespace Sys2Proof

/-- A command of LINCK, one constructor per row of the opcode map (30_encoding.md R63), with its `DATA` operand (R62). -/
inductive Instr where
  /-- `CKINIT #s`: start an accumulation (40_checksum.md R103). -/
  | ckinit (seed : Byte)
  /-- `CKADD #b`: add one data byte with end-around carry (40_checksum.md R104). -/
  | ckadd (data : Byte)
  /-- `CKRAW`: read the raw accumulator (40_checksum.md R105). -/
  | ckraw
  /-- `CKRES`: read the checksum (40_checksum.md R106). -/
  | ckres
  /-- `CKVER #c`: check a candidate checksum (40_checksum.md R107). -/
  | ckver (candidate : Byte)
  /-- `PIDENC #f`: encode a frame identifier; all eight operand bits are kept (41_protected_id.md R153). -/
  | pidenc (frameId : Byte)
  /-- `PIDDEC #p`: decode and check a protected identifier (41_protected_id.md R155). -/
  | piddec (pid : Byte)
  deriving DecidableEq, Repr

/-- The mnemonic column of the opcode map (30_encoding.md R63). -/
inductive Mnemonic where
  | ckinit | ckadd | ckraw | ckres | ckver | pidenc | piddec
  deriving DecidableEq, Repr

/-- A pseudo-instruction (30_encoding.md R74), its operands in the source's order: checksum, protected ID, data.
`β` is `Byte` once its numbers are checked, `Nat` as they stand in a source line (R71). -/
inductive Pseudo (β : Type) where
  | calcClassic (data : List β)
  | calcEnhanced (pid : β) (data : List β)
  | verifyClassic (checksum : β) (data : List β)
  | verifyEnhanced (checksum pid : β) (data : List β)
  | encodePid (frameId : β)
  | decodePid (pid : β)
  deriving DecidableEq, Repr

/-- The six names of R74's pseudo-instruction column. -/
inductive PseudoName where
  | calcClassic | calcEnhanced | verifyClassic | verifyEnhanced | encodePid | decodePid
  deriving DecidableEq, Repr

/-- A line of an assembler source, its numbers as written (30_encoding.md R70, R71, R74). -/
inductive AsmLine where
  /-- A command with its immediate, if it has one. -/
  | command (m : Mnemonic) (imm : Option Nat)
  /-- The directive `.word`, a raw 16-bit word. -/
  | word (w : Nat)
  | pseudo (p : Pseudo Nat)
  deriving DecidableEq, Repr

/-- Why the assembler or the transcriber refuses (30_encoding.md R71, R75; 93_implementation_defined.md U1). This is
no fault of LINCK: a refused line gives no word. -/
inductive AsmError where
  /-- An immediate, or a byte of a list, outside 0 to 255 (R71). -/
  | immediateOutOfRange
  /-- An immediate given to `CKRAW` or `CKRES` (R71). -/
  | immediateNotAllowed
  /-- A command that takes an immediate stands without one (R70). -/
  | immediateMissing
  /-- A raw word that does not fit 16 bits (R70). -/
  | wordOutOfRange
  /-- A list longer than 255 bytes (R75). -/
  | listTooLong
  /-- A length beyond the caller's buffer (R75, U1). -/
  | lengthBeyondBuffer
  /-- A name that is no mnemonic, pseudo-instruction or directive (R70, R74). -/
  | unknownName
  /-- A line that has none of the forms of R70, R71 and R74. -/
  | malformed
  deriving DecidableEq, Repr

/-- A token of a source line: a name or number, or one of the punctuation marks of R71 and R74. -/
inductive Token where
  | text (cs : List Char)
  | hash | listOpen | listClose | comma
  deriving DecidableEq, Repr

end Sys2Proof
end

