-- ==== Sys2Proof/Decode.lean ====
section
/-! DEFINITION. Decoding a command word (30_encoding.md R61 to R69), total and rejecting by name, and after it the
encoder (R72). -/

namespace Sys2Proof

/-- The reason an illegal word is reported with (60_exceptions.md R180). The hardware records none of them. -/
inductive IllegalReason where
  /-- `OP` is `0x0` or `0x8` to `0xF`. -/
  | badOpcode
  /-- `RSV != 0`. -/
  | reservedBitsSet
  /-- `CKRAW` or `CKRES` with `DATA != 0`. -/
  | dataMustBeZero
  deriving DecidableEq, Repr

/-- What a word decodes to: "a command or an illegal verdict with a named reason" (30_encoding.md R69). -/
inductive Decoded where
  | command (i : Instr)
  | illegal (r : IllegalReason)
  deriving DecidableEq, Repr

/-- `OP`, bits 15:12 (30_encoding.md R61). -/
def opField (w : Word) : BitVec 4 := w.extractLsb' 12 4

/-- `RSV`, bits 11:8 (30_encoding.md R61). -/
def rsvField (w : Word) : BitVec 4 := w.extractLsb' 8 4

/-- `DATA`, bits 7:0 (30_encoding.md R61). -/
def dataField (w : Word) : Byte := w.extractLsb' 0 8

/-- The opcodes no command has: `0x0`, `0x8` to `0xF` (30_encoding.md R69), and `0x7` were there no decoder
(93_implementation_defined.md U3). -/
def opcodeUnassigned (op : BitVec 4) : Bool :=
  op == 0x0#4 || decide (0x8#4 ≤ op) || (op == 0x7#4 && !Config.hasPdec)

/-- A command without operand, whose `DATA` must be `0x00` (30_encoding.md R65). -/
def noOperand (i : Instr) (data : Byte) : Decoded :=
  if data = 0x00#8 then .command i else .illegal .dataMustBeZero

/-- The command of an assigned opcode (the case list of 30_encoding.md R69). -/
def decodeOp (op : BitVec 4) (data : Byte) : Decoded :=
  if op = 0x1#4 then .command (.ckinit data)
  else if op = 0x2#4 then .command (.ckadd data)
  else if op = 0x3#4 then noOperand .ckraw data
  else if op = 0x4#4 then noOperand .ckres data
  else if op = 0x5#4 then .command (.ckver data)
  else if op = 0x6#4 then .command (.pidenc data)
  else .command (.piddec data)

/-- Decoding, its checks in the order of 30_encoding.md R69. -/
def decode (w : Word) : Decoded :=
  if opcodeUnassigned (opField w) then .illegal .badOpcode
  else if rsvField w ≠ 0x0#4 then .illegal .reservedBitsSet
  else decodeOp (opField w) (dataField w)

/-- The instruction a verdict holds, if it is a command. -/
def Decoded.instr? : Decoded → Option Instr
  | .command i => some i
  | .illegal _ => none

/-- Whether a word is one of the legal words (30_encoding.md R66). -/
def legalWord (w : Word) : Bool := (decode w).instr?.isSome

/-- The 16-bit word of a row of the opcode table, from the low `nbits` bits of `w`; none where these do not fit one
command word, since there is no other length (30_encoding.md R68). -/
def tableWord (nbits w : Nat) : Option Word :=
  if w % 2 ^ nbits < 65536 then some (BitVec.ofNat 16 (w % 2 ^ nbits)) else none

/-- The instruction the decoder reads from a word numbered as the opcode table numbers it (00_scope.md R10). -/
def decodeTableWord (nbits w : Nat) : Option Instr :=
  match tableWord nbits w with
  | some v => (decode v).instr?
  | none => none

/-! ### The encoder -/

/-- `OP` of a command (30_encoding.md R63). -/
def opcodeOf : Instr → BitVec 4
  | .ckinit _ => 0x1#4
  | .ckadd _ => 0x2#4
  | .ckraw => 0x3#4
  | .ckres => 0x4#4
  | .ckver _ => 0x5#4
  | .pidenc _ => 0x6#4
  | .piddec _ => 0x7#4

/-- `DATA` of a command; `0x00` where it has no operand (30_encoding.md R62, R65). -/
def operandOf : Instr → Byte
  | .ckinit s => s
  | .ckadd b => b
  | .ckraw => 0x00#8
  | .ckres => 0x00#8
  | .ckver c => c
  | .pidenc f => f
  | .piddec p => p

/-- The word of a command, `OP`, then `RSV = 0b0000`, then `DATA` (30_encoding.md R61, R64, R72). -/
def encode (i : Instr) : Word := opcodeOf i ++ 0b0000#4 ++ operandOf i

/-- The mnemonic of a command (30_encoding.md R63). -/
def Instr.mnemonic : Instr → Mnemonic
  | .ckinit _ => .ckinit
  | .ckadd _ => .ckadd
  | .ckraw => .ckraw
  | .ckres => .ckres
  | .ckver _ => .ckver
  | .pidenc _ => .pidenc
  | .piddec _ => .piddec

/-- The command of a mnemonic with an operand; `CKRAW` and `CKRES` have none to take (30_encoding.md R70). -/
def instrOf (m : Mnemonic) (data : Byte) : Instr :=
  match m with
  | .ckinit => .ckinit data
  | .ckadd => .ckadd data
  | .ckraw => .ckraw
  | .ckres => .ckres
  | .ckver => .ckver data
  | .pidenc => .pidenc data
  | .piddec => .piddec data

/-- A row of the opcode map: the words `w` with `(w & mask) == match` (30_encoding.md R63). -/
structure OpcodeRow where
  mnemonic : Mnemonic
  matchBits : Word
  mask : Word
  deriving DecidableEq, Repr

/-- The opcode map (30_encoding.md R63). -/
def opcodeTable : List OpcodeRow :=
  [⟨.ckinit, 0x1000#16, 0xFF00#16⟩,
   ⟨.ckadd, 0x2000#16, 0xFF00#16⟩,
   ⟨.ckraw, 0x3000#16, 0xFFFF#16⟩,
   ⟨.ckres, 0x4000#16, 0xFFFF#16⟩,
   ⟨.ckver, 0x5000#16, 0xFF00#16⟩,
   ⟨.pidenc, 0x6000#16, 0xFF00#16⟩,
   ⟨.piddec, 0x7000#16, 0xFF00#16⟩]

/-- A word is the command of this row (30_encoding.md R63). -/
def OpcodeRow.covers (r : OpcodeRow) (w : Word) : Bool := w &&& r.mask == r.matchBits

end Sys2Proof
end

