-- ==== Sys2Proof/Machine/Operands.lean ====
section
/-! DEFINITION. The parts of an operand byte that the commands use (30_encoding.md R62). -/

namespace Sys2Proof.Machine

/-- `DATA[5:0]`, the frame identifier of an identifier or protected identifier; `DATA[7:6]` is ignored
(30_encoding.md R62, 41_protected_id.md R153). -/
def fidOf (data : Byte) : Fid := data.extractLsb' 0 6

/-- Bits 7:6 of a protected identifier, its parity bits (00_scope.md R10, 41_protected_id.md R154). -/
def parityBits (p : Byte) : BitVec 2 := p.extractLsb' 6 2

/-- `zext_8` of a frame identifier (00_scope.md R11, 41_protected_id.md R155). -/
def zextFid (f : Fid) : Byte := f.setWidth 8

end Sys2Proof.Machine
end

