-- ==== Sys2Proof/Machine/State.lean ====
section
/-! DEFINITION. The state of LINCK as plain data (10_state.md R20), what the host drives on its ports at a rising edge
(30_encoding.md R60), and the ways a step could stop. -/

namespace Sys2Proof.Machine

/-- The input ports as sampled at one rising edge of `clk` (30_encoding.md R60). -/
structure Edge where
  /-- `rst`, active high. -/
  rst : Bool
  /-- `cmd_valid`. -/
  cmdValid : Bool
  /-- `cmd[15:0]`. -/
  cmd : Word
  deriving DecidableEq, Repr

/-- The state of the machine. The first four fields are the elements of 10_state.md R20; its fifth row, `PIDTAB`, is a
constant that nothing writes (R26) and is `Machine.pidtab`. -/
structure State where
  /-- `ACC`, the accumulator (R21). -/
  acc : Byte
  /-- `RES`, the result register (R22). -/
  res : Byte
  /-- `OK`, the Boolean result flag (R23). -/
  ok : Bool
  /-- `ERR`, the sticky error flag (R24). -/
  err : Bool
  /-- The MODEL's own field, not the spec's: the rising edges still to come, the next first. DESIGN CHOICE, log entry 1. -/
  port : List Edge
  deriving DecidableEq, Repr

/-- The state after reset (10_state.md R29, 70_reset_and_hazards.md R200), with nothing driven yet (log entry 1). -/
def State.reset : State :=
  { acc := 0x00#8, res := 0x00#8, ok := false, err := false, port := [] }

/-- The faults that stop the machine: none. The one error, `IllegalCommand`, sets `ERR` and the machine goes on
(60_exceptions.md R181, R182; log entry 3), and no data condition is an error (R183). Safe: nobody raises one. -/
inductive Fault where
  deriving DecidableEq, Repr

/-- The reasons for giving an instruction no meaning. -/
inductive Refusal where
  /-- The dispatcher raises it for an instruction that has no meaning yet; no arm does. Safe: the machine stops. -/
  | notModelled (mnemonic : String)
  deriving DecidableEq, Repr

/-- The values on the output ports `acc_o`, `res_o`, `ok_o`, `err_o` (30_encoding.md R60), the observation of a run
(70_reset_and_hazards.md R210). -/
structure Outputs where
  accO : Byte
  resO : Byte
  okO : Bool
  errO : Bool
  deriving DecidableEq, Repr

end Sys2Proof.Machine
end

