-- ==== Sys2Proof/Machine/Flags.lean ====
section
/-! DEFINITION. The flag computations: the parity bits of an identifier (41_protected_id.md R150), the two Boolean
outcomes written to `OK` (10_state.md R23), and the `STATUS` view (R25). -/

namespace Sys2Proof.Machine

/-- `P0`, PID bit 6: the XOR of identifier bits 0, 1, 2 and 4 (41_protected_id.md R150). -/
def parity0 (f : Fid) : Bool := f.getLsbD 0 ^^ f.getLsbD 1 ^^ f.getLsbD 2 ^^ f.getLsbD 4

/-- `P1`, PID bit 7: the inverted XOR of identifier bits 1, 3, 4 and 5 (41_protected_id.md R150). -/
def parity1 (f : Fid) : Bool := !(f.getLsbD 1 ^^ f.getLsbD 3 ^^ f.getLsbD 4 ^^ f.getLsbD 5)

/-- The verify outcome, from the 8-bit sum (40_checksum.md R107). -/
def verifyMatch (sum8 : Byte) : Bool := sum8 == 0xFF#8

/-- The parity-valid outcome: the expected and the received parity bits agree (41_protected_id.md R155). -/
def parityValid (expected received : Byte) : Bool := parityBits expected == parityBits received

/-- `STATUS`, bits 0 `OK`, 1 `ERR`, 7:2 read as zero (10_state.md R25). -/
def statusView (s : State) : Byte := 0b000000#6 ++ BitVec.ofBool s.err ++ BitVec.ofBool s.ok

end Sys2Proof.Machine
end

