-- ==== Sys2Proof/Machine/Ops.lean ====
section
/-! DEFINITION. The operations the commands share: writing a state element, the arithmetic of 00_scope.md R8, raising
`IllegalCommand` (60_exceptions.md R181), taking a reset (70_reset_and_hazards.md R200), and the output ports. -/

namespace Sys2Proof.Machine

/-- `ACC <- v` (00_scope.md R12). -/
def State.setAcc (s : State) (v : Byte) : State := { s with acc := v }

/-- `RES <- v` (00_scope.md R12). -/
def State.setRes (s : State) (v : Byte) : State := { s with res := v }

/-- `OK <- b` (00_scope.md R12). -/
def State.setOk (s : State) (b : Bool) : State := { s with ok := b }

/-- `ERR <- b` (00_scope.md R12). -/
def State.setErr (s : State) (b : Bool) : State := { s with err := b }

/-- The edges still to come become `es` (log entry 1). -/
def State.setPort (s : State) (es : List Edge) : State := { s with port := es }

/-- `eac_add`: the 9-bit sum with its carry folded back in (40_checksum.md R100). -/
def eacAdd (a b : Byte) : Byte :=
  let s : BitVec 9 := a.setWidth 9 + b.setWidth 9
  s.extractLsb' 0 8 + (s.extractLsb' 8 1).setWidth 8

/-- The verify sum: modulo 256, with NO end-around carry (40_checksum.md R107, 90_conflicts.md C3). -/
def verifySum (acc c : Byte) : Byte := acc + c

/-- The one's complement of the accumulator (40_checksum.md R106, 00_scope.md R11). -/
def onesComplement (a : Byte) : Byte := ~~~a

/-- `raise IllegalCommand(reason)`: `ERR <- 1` and nothing else; the reason is a diagnostic the hardware does not record
(60_exceptions.md R180, R181). This is the whole of taking an exception: nothing is saved and no control is redirected
(R187), and there is no return from it (R188). -/
def raiseIllegal (_reason : IllegalReason) (s : State) : State := s.setErr true

/-- A reset edge: every element takes its reset value, and what the host drives later is untouched
(70_reset_and_hazards.md R200). -/
def takeReset (s : State) : State := State.reset.setPort s.port

/-- The output ports show the elements of the same name (30_encoding.md R60). -/
def outputs (s : State) : Outputs := { accO := s.acc, resO := s.res, okO := s.ok, errO := s.err }

/-- The cause code, "recorded only as `ERR = 1`" (60_exceptions.md R180). -/
def causeCode (s : State) : Nat := if s.err then Config.illegalCommandCode else Config.noErrorCode

end Sys2Proof.Machine
end

