-- ==== Sys2Proof/Machine/Checksum.lean ====
section
/-! DEFINITION. The Checksum Accumulator's five commands (40_checksum.md R103 to R107). -/

namespace Sys2Proof.Machine

/-- `CKINIT #s`: `ACC <- DATA`, any seed accepted (40_checksum.md R103). -/
def execCkinit (seed : Byte) (s : State) : Host.Outcome State Fault Refusal :=
  .next (s.setAcc seed)

/-- `CKADD #b`: `ACC <- eac_add(ACC, DATA)` (40_checksum.md R104). -/
def execCkadd (data : Byte) (s : State) : Host.Outcome State Fault Refusal :=
  .next (s.setAcc (eacAdd s.acc data))

/-- `CKRAW`: `RES <- ACC` (40_checksum.md R105). -/
def execCkraw (s : State) : Host.Outcome State Fault Refusal :=
  .next (s.setRes s.acc)

/-- `CKRES`: `RES <- ~ACC` (40_checksum.md R106). -/
def execCkres (s : State) : Host.Outcome State Fault Refusal :=
  .next (s.setRes (onesComplement s.acc))

/-- `CKVER #c`: `RES <- sum8`, `OK <- bool(sum8 == 0xFF)` (40_checksum.md R107). -/
def execCkver (candidate : Byte) (s : State) : Host.Outcome State Fault Refusal :=
  let sum8 := verifySum s.acc candidate
  .next ((s.setRes sum8).setOk (verifyMatch sum8))

end Sys2Proof.Machine
end

