-- ==== Sys2Proof/Machine/PidTab.lean ====
section
/-! DEFINITION. The one address space, `PIDTAB`: 64 read-only bytes with constant contents (20_memory.md R40,
41_protected_id.md R152). No operation writes it (00_scope.md R12, 10_state.md R26), so it is a constant and no part of
State (log entry 4). -/

namespace Sys2Proof.Machine

/-- The grid of 41_protected_id.md R152, row by row: entry `f` is the protected identifier of `f`. -/
def pidtab : Vector Byte 64 :=
  (#v[0x80#8, 0xC1#8, 0x42#8, 0x03#8, 0xC4#8, 0x85#8, 0x06#8, 0x47#8] ++
   #v[0x08#8, 0x49#8, 0xCA#8, 0x8B#8, 0x4C#8, 0x0D#8, 0x8E#8, 0xCF#8]) ++
  (#v[0x50#8, 0x11#8, 0x92#8, 0xD3#8, 0x14#8, 0x55#8, 0xD6#8, 0x97#8] ++
   #v[0xD8#8, 0x99#8, 0x1A#8, 0x5B#8, 0x9C#8, 0xDD#8, 0x5E#8, 0x1F#8]) ++
  (#v[0x20#8, 0x61#8, 0xE2#8, 0xA3#8, 0x64#8, 0x25#8, 0xA6#8, 0xE7#8] ++
   #v[0xA8#8, 0xE9#8, 0x6A#8, 0x2B#8, 0xEC#8, 0xAD#8, 0x2E#8, 0x6F#8]) ++
  (#v[0xF0#8, 0xB1#8, 0x32#8, 0x73#8, 0xB4#8, 0xF5#8, 0x76#8, 0x37#8] ++
   #v[0x78#8, 0x39#8, 0xBA#8, 0xFB#8, 0x3C#8, 0x7D#8, 0xFE#8, 0xBF#8])

/-- `MemRead(PIDTAB, a, 1)`: the byte at a 6-bit address, so no address is out of range (00_scope.md R12, 20_memory.md
R44). -/
def memReadPidtab (a : Fid) : Byte := pidtab[a.toNat]'a.isLt

end Sys2Proof.Machine
end

