-- ==== Sys2Proof/Machine/ProtectedId.lean ====
section
/-! DEFINITION. The Protected-ID Encoder's and Decoder's commands (41_protected_id.md R153, R155). -/

namespace Sys2Proof.Machine

/-- `PIDENC #f`: `RES <- MemRead(PIDTAB, DATA[5:0], 1)` (41_protected_id.md R153). -/
def execPidenc (frameId : Byte) (s : State) : Host.Outcome State Fault Refusal :=
  .next (s.setRes (memReadPidtab (fidOf frameId)))

/-- `PIDDEC #p`: the identifier in `RES` whatever the parity, the parity verdict in `OK` (41_protected_id.md R155). -/
def execPiddec (pid : Byte) (s : State) : Host.Outcome State Fault Refusal :=
  let e := memReadPidtab (fidOf pid)
  .next ((s.setRes (zextFid (fidOf pid))).setOk (parityValid e pid))

end Sys2Proof.Machine
end

