-- ==== Sys2Proof/Machine/Dispatch.lean ====
section
/-! DEFINITION. One arm per command (30_encoding.md R63). -/

namespace Sys2Proof.Machine

def exec (i : Instr) (s : State) : Host.Outcome State Fault Refusal :=
  match i with
  | .ckinit seed => Sys2Proof.Machine.execCkinit seed s
  | .ckadd data => Sys2Proof.Machine.execCkadd data s
  | .ckraw => Sys2Proof.Machine.execCkraw s
  | .ckres => Sys2Proof.Machine.execCkres s
  | .ckver candidate => Sys2Proof.Machine.execCkver candidate s
  | .pidenc frameId => Sys2Proof.Machine.execPidenc frameId s
  | .piddec pid => Sys2Proof.Machine.execPiddec pid s

end Sys2Proof.Machine
end

