-- ==== Sys2Proof/Machine/Port.lean ====
section
/-! DEFINITION. What a rising edge does (30_encoding.md R60, 70_reset_and_hazards.md R200 to R204), and which edge comes
next. -/

namespace Sys2Proof.Machine

/-- An edge on which the host drives a command. -/
def Edge.command (w : Word) : Edge := { rst := false, cmdValid := true, cmd := w }

/-- An edge on which the host drives nothing, `cmd_valid = 0`; the value of `cmd` does not matter (R204). -/
def Edge.idle : Edge := { rst := false, cmdValid := false, cmd := 0x0000#16 }

/-- Accept a word: run the command it encodes, or raise `IllegalCommand` (30_encoding.md R60, 60_exceptions.md R181). -/
def acceptWord (w : Word) (s : State) : Host.Outcome State Fault Refusal :=
  match decode w with
  | .command i => exec i s
  | .illegal r => .next (raiseIllegal r s)

/-- One rising edge: reset wins over a command (R201), a valid command is accepted (R60), otherwise nothing changes
(R204). -/
def takeEdge (e : Edge) (s : State) : Host.Outcome State Fault Refusal :=
  if e.rst then .next (takeReset s)
  else if e.cmdValid then acceptWord e.cmd s
  else .next s

/-- The next edge, and the state with it taken off the front. With none left the host drives nothing: DESIGN CHOICE, log
entry 1. -/
def fetchEdge (s : State) : Edge × State :=
  match s.port with
  | [] => (Edge.idle, s)
  | e :: rest => (e, s.setPort rest)

/-- Put an edge in front of those still to come (log entry 2). -/
def pushEdge (e : Edge) (s : State) : State := s.setPort (e :: s.port)

end Sys2Proof.Machine
end

