-- ==== Sys2Proof/Machine/Step.lean ====
section
/-! DEFINITION. One step of LINCK is one rising edge of `clk` (00_scope.md R9, 70_reset_and_hazards.md R203). -/

namespace Sys2Proof.Machine

/-- Take the next edge. -/
def step (s : State) : Host.Outcome State Fault Refusal :=
  takeEdge (fetchEdge s).1 (fetchEdge s).2

/-- The state in which the very next edge carries the given table word as a command (log entry 2). A word that does not
fit 16 bits is no command word, and nothing is placed. -/
def State.withFetchWord (s : State) (nbits w : Nat) : State :=
  match tableWord nbits w with
  | some v => pushEdge (Edge.command v) s
  | none => s

end Sys2Proof.Machine
end

