-- ==== Sys2Proof/Machine/Pseudo.lean ====
section
/-! DEFINITION. The six public operations as command sequences (30_encoding.md R74), and how a caller's buffer becomes
the byte list of one (00_scope.md R13, 30_encoding.md R75). -/

namespace Sys2Proof.Machine

/-- The data bytes as commands, in index order (20_memory.md R52). -/
def addAll (d : List Byte) : List Instr := d.map Instr.ckadd

/-- The expansion of a pseudo-instruction (30_encoding.md R74). -/
def expand : Pseudo Byte → List Instr
  | .calcClassic d => .ckinit 0x00#8 :: (addAll d ++ [.ckres])
  | .calcEnhanced pid d => .ckinit pid :: (addAll d ++ [.ckres])
  | .verifyClassic c d => .ckinit 0x00#8 :: (addAll d ++ [.ckver c])
  | .verifyEnhanced c pid d => .ckinit pid :: (addAll d ++ [.ckver c])
  | .encodePid f => [.pidenc f]
  | .decodePid p => [.piddec p]

/-- The words of a pseudo-instruction (30_encoding.md R72, R74). -/
def expandWords (p : Pseudo Byte) : List Word := (expand p).map encode

/-- The transcriber's byte list: the caller's buffer truncated to the caller's length, never to the buffer's own size
(00_scope.md R13); a length beyond the buffer or above 255 is refused (30_encoding.md R75, 93_implementation_defined.md
U1). -/
def callerBytes (buffer : List Byte) (length : Nat) : Except AsmError (List Byte) :=
  if Config.maxListLength < length then .error .listTooLong
  else if buffer.length < length then .error .lengthBeyondBuffer
  else .ok (buffer.take length)

end Sys2Proof.Machine
end

