-- ==== Sys2Proof/WellFormed.lean ====
section
/-! DEFINITION. Which terms of the abstract grammar are legal. A command's operand may be any byte (30_encoding.md
R62, 40_checksum.md R118), so every `Instr` is well-formed; the checks that can fail are the assembler's (R71, R75). -/

namespace Sys2Proof

/-- Every operand value of every command is accepted (30_encoding.md R62, 40_checksum.md R118); the operand's width
is in its type. -/
def Instr.wellFormed : Instr → Bool
  | .ckinit _ => true
  | .ckadd _ => true
  | .ckraw => true
  | .ckres => true
  | .ckver _ => true
  | .pidenc _ => true
  | .piddec _ => true

/-- An immediate lies in 0 to 255 (30_encoding.md R71). -/
def immediateOk (n : Nat) : Bool := decide (n < 256)

/-- A raw word has 16 bits (30_encoding.md R70). -/
def rawWordOk (n : Nat) : Bool := decide (n < 65536)

/-- A list has at most 255 entries, each an immediate (30_encoding.md R71, R75). -/
def byteListOk (d : List Nat) : Bool :=
  decide (d.length ≤ Config.maxListLength) && d.all immediateOk

/-- Whether a command takes an immediate: all but `CKRAW` and `CKRES` (30_encoding.md R70, R65). -/
def Mnemonic.takesImmediate : Mnemonic → Bool
  | .ckinit => true
  | .ckadd => true
  | .ckraw => false
  | .ckres => false
  | .ckver => true
  | .pidenc => true
  | .piddec => true

/-- A command stands with an immediate in range exactly when it takes one (30_encoding.md R70, R71). -/
def commandOk (m : Mnemonic) (imm : Option Nat) : Bool :=
  match imm with
  | none => !m.takesImmediate
  | some n => m.takesImmediate && immediateOk n

/-- The operands of a pseudo-instruction are bytes and its list is not too long (30_encoding.md R71, R74, R75). -/
def Pseudo.wellFormed : Pseudo Nat → Bool
  | .calcClassic d => byteListOk d
  | .calcEnhanced pid d => immediateOk pid && byteListOk d
  | .verifyClassic c d => immediateOk c && byteListOk d
  | .verifyEnhanced c pid d => immediateOk c && immediateOk pid && byteListOk d
  | .encodePid f => immediateOk f
  | .decodePid p => immediateOk p

/-- A line the assembler takes (30_encoding.md R70, R71, R74, R75). -/
def AsmLine.wellFormed : AsmLine → Bool
  | .command m imm => commandOk m imm
  | .word w => rawWordOk w
  | .pseudo p => p.wellFormed

end Sys2Proof
end

