-- ==== Sys2Proof/Machine/Assembler.lean ====
section
/-! DEFINITION. The assembler and disassembler (30_encoding.md R70 to R75). Text is a list of characters. What the spec
leaves open of a line's spelling is fixed here and logged (log entry 9). Nothing in the machine depends on this file. -/

namespace Sys2Proof.Machine

/-! ### From a line to its words -/

/-- A source number as a byte, `zext_8` of its value (30_encoding.md R71). -/
def byteOf (n : Nat) : Byte := BitVec.ofNat 8 n

/-- The operands of a pseudo-instruction as bytes (30_encoding.md R71). -/
def pseudoBytes : Pseudo Nat → Pseudo Byte
  | .calcClassic d => .calcClassic (d.map byteOf)
  | .calcEnhanced pid d => .calcEnhanced (byteOf pid) (d.map byteOf)
  | .verifyClassic c d => .verifyClassic (byteOf c) (d.map byteOf)
  | .verifyEnhanced c pid d => .verifyEnhanced (byteOf c) (byteOf pid) (d.map byteOf)
  | .encodePid f => .encodePid (byteOf f)
  | .decodePid p => .decodePid (byteOf p)

/-- The byte list of a pseudo-instruction; empty for the two that have none. -/
def pseudoList : Pseudo Nat → List Nat
  | .calcClassic d => d
  | .calcEnhanced _ d => d
  | .verifyClassic _ d => d
  | .verifyEnhanced _ _ d => d
  | .encodePid _ => []
  | .decodePid _ => []

/-- The words of a command line; the immediate fills `DATA` (30_encoding.md R70, R71, R72). -/
def assembleCommand (m : Mnemonic) (imm : Option Nat) : Except AsmError (List Word) :=
  match imm with
  | none => if m.takesImmediate then .error .immediateMissing else .ok [encode (instrOf m 0x00#8)]
  | some n =>
    if !m.takesImmediate then .error .immediateNotAllowed
    else if immediateOk n then .ok [encode (instrOf m (byteOf n))]
    else .error .immediateOutOfRange

/-- The words of a pseudo-instruction (30_encoding.md R74); too long a list is refused (R75), and so is a number outside
0 to 255 (R71). -/
def assemblePseudo (p : Pseudo Nat) : Except AsmError (List Word) :=
  if Config.maxListLength < (pseudoList p).length then .error .listTooLong
  else if p.wellFormed then .ok (expandWords (pseudoBytes p))
  else .error .immediateOutOfRange

/-- The words of a line (30_encoding.md R70 to R75). -/
def assembleLine : AsmLine → Except AsmError (List Word)
  | .command m imm => assembleCommand m imm
  | .word w => if rawWordOk w then .ok [BitVec.ofNat 16 w] else .error .wordOutOfRange
  | .pseudo p => assemblePseudo p

/-! ### Spelling -/

/-- The spelling of a mnemonic (30_encoding.md R63, R70). -/
def spelling : Mnemonic → List Char
  | .ckinit => ['C', 'K', 'I', 'N', 'I', 'T']
  | .ckadd => ['C', 'K', 'A', 'D', 'D']
  | .ckraw => ['C', 'K', 'R', 'A', 'W']
  | .ckres => ['C', 'K', 'R', 'E', 'S']
  | .ckver => ['C', 'K', 'V', 'E', 'R']
  | .pidenc => ['P', 'I', 'D', 'E', 'N', 'C']
  | .piddec => ['P', 'I', 'D', 'D', 'E', 'C']

/-- The spelling of a pseudo-instruction's name (30_encoding.md R74). -/
def pseudoSpelling : PseudoName → List Char
  | .calcClassic => ['C', 'A', 'L', 'C', '_', 'C', 'L', 'A', 'S', 'S', 'I', 'C']
  | .calcEnhanced => ['C', 'A', 'L', 'C', '_', 'E', 'N', 'H', 'A', 'N', 'C', 'E', 'D']
  | .verifyClassic => ['V', 'E', 'R', 'I', 'F', 'Y', '_', 'C', 'L', 'A', 'S', 'S', 'I', 'C']
  | .verifyEnhanced => ['V', 'E', 'R', 'I', 'F', 'Y', '_', 'E', 'N', 'H', 'A', 'N', 'C', 'E', 'D']
  | .encodePid => ['E', 'N', 'C', 'O', 'D', 'E', '_', 'P', 'I', 'D']
  | .decodePid => ['D', 'E', 'C', 'O', 'D', 'E', '_', 'P', 'I', 'D']

def allMnemonics : List Mnemonic := [.ckinit, .ckadd, .ckraw, .ckres, .ckver, .pidenc, .piddec]

def allPseudoNames : List PseudoName :=
  [.calcClassic, .calcEnhanced, .verifyClassic, .verifyEnhanced, .encodePid, .decodePid]

/-- An upper-case hexadecimal digit (30_encoding.md R73's `#0x4A`). -/
def hexDigit (n : BitVec 4) : Char :=
  if n.toNat < 10 then Char.ofNat (48 + n.toNat) else Char.ofNat (55 + n.toNat)

/-- A byte in two hexadecimal digits (30_encoding.md R73). -/
def hexByte (b : Byte) : List Char := [hexDigit (b.extractLsb' 4 4), hexDigit (b.extractLsb' 0 4)]

/-- A word in four hexadecimal digits (30_encoding.md R73). -/
def hexWord (w : Word) : List Char := hexByte (w.extractLsb' 8 8) ++ hexByte (w.extractLsb' 0 8)

/-- A command as it is printed: the mnemonic, and the immediate in two hexadecimal digits if it takes one
(30_encoding.md R72, R73). -/
def printCommand (m : Mnemonic) (takesImmediate : Bool) (data : Byte) : List Char :=
  if takesImmediate then spelling m ++ [' ', '#', '0', 'x'] ++ hexByte data else spelling m

/-- The disassembly of a word; an illegal one is printed as `.word 0xHHHH` (30_encoding.md R73). -/
def disassemble (w : Word) : List Char :=
  match decode w with
  | .command i => printCommand i.mnemonic i.mnemonic.takesImmediate (operandOf i)
  | .illegal _ => ['.', 'w', 'o', 'r', 'd', ' ', '0', 'x'] ++ hexWord w

/-! ### From text to a line -/

/-- The punctuation marks of a line (30_encoding.md R71, R74). -/
def punctuation (c : Char) : Option Token :=
  if c = '#' then some .hash
  else if c = '[' then some .listOpen
  else if c = ']' then some .listClose
  else if c = ',' then some .comma
  else none

/-- The name or number read so far, given last character first, if there is one. -/
def flushText (acc : List Char) : List Token := if acc.isEmpty then [] else [.text acc.reverse]

/-- The tokens of a line. A `;` starts a comment that runs to the end of the line (30_encoding.md R70); spaces and tabs
separate, and so do the punctuation marks (log entry 9). -/
def tokens : List Char → List Char → List Token
  | [], acc => flushText acc
  | c :: cs, acc =>
    if c = ';' then flushText acc
    else if c = ' ' ∨ c = '\t' then flushText acc ++ tokens cs []
    else match punctuation c with
      | some t => flushText acc ++ t :: tokens cs []
      | none => tokens cs (c :: acc)

/-- A letter in upper case: mnemonics are case-insensitive (30_encoding.md R70). That the names of pseudo-instructions and
`.word` are so too is a DESIGN CHOICE, log entry 9. -/
def upperChar (c : Char) : Char :=
  if 97 ≤ c.toNat ∧ c.toNat ≤ 122 then Char.ofNat (c.toNat - 32) else c

/-- The value of a digit in a base up to 16; hexadecimal digits in either case (log entry 9). -/
def digitValue (base : Nat) (c : Char) : Option Nat :=
  let v := if 48 ≤ c.toNat ∧ c.toNat ≤ 57 then some (c.toNat - 48)
    else if 65 ≤ c.toNat ∧ c.toNat ≤ 70 then some (c.toNat - 55)
    else if 97 ≤ c.toNat ∧ c.toNat ≤ 102 then some (c.toNat - 87)
    else none
  match v with
  | some n => if n < base then some n else none
  | none => none

/-- The value of a digit sequence, continuing from `acc`. -/
def digitsValue (base : Nat) : List Char → Nat → Option Nat
  | [], acc => some acc
  | c :: cs, acc =>
    match digitValue base c with
    | some n => digitsValue base cs (acc * base + n)
    | none => none

/-- A number in decimal, or in hexadecimal after `0x` (30_encoding.md R71). It may have any number of digits, one or more,
in either base, leading zeros included: DESIGN CHOICE, log entry 9. -/
def readNumber (cs : List Char) : Option Nat :=
  match cs with
  | [] => none
  | '0' :: 'x' :: ds => if ds.isEmpty then none else digitsValue 16 ds 0
  | ds => digitsValue 10 ds 0

/-- The raw word `0xHHHH` of a `.word` line (30_encoding.md R70). -/
def readRawWord (cs : List Char) : Option Nat :=
  match cs with
  | '0' :: 'x' :: ds => if ds.length = 4 then digitsValue 16 ds 0 else none
  | _ => none

/-- The entries of a list after its first, up to its closing bracket, which ends the line (30_encoding.md R74). -/
def readEntries : List Token → Option (List Nat)
  | [.listClose] => some []
  | .comma :: .text cs :: rest =>
    match readNumber cs, readEntries rest with
    | some n, some ns => some (n :: ns)
    | _, _ => none
  | _ => none

/-- A list `[d0, ..., d(n-1)]`; `[]` is legal (30_encoding.md R74). -/
def readList : List Token → Option (List Nat)
  | [.listOpen, .listClose] => some []
  | .listOpen :: .text cs :: rest =>
    match readNumber cs, readEntries rest with
    | some n, some ns => some (n :: ns)
    | _, _ => none
  | _ => none

/-- A command's operand: nothing, or `#imm` (30_encoding.md R70). -/
def readCommand (m : Mnemonic) : List Token → Option AsmLine
  | [] => some (.command m none)
  | [.hash, .text cs] => (readNumber cs).map fun n => .command m (some n)
  | _ => none

/-- A pseudo-instruction's operands, in the source's order (30_encoding.md R74). -/
def readPseudo (p : PseudoName) (ts : List Token) : Option (Pseudo Nat) :=
  match p, ts with
  | .calcClassic, ts => (readList ts).map .calcClassic
  | .calcEnhanced, .hash :: .text cs :: .comma :: ts =>
    match readNumber cs, readList ts with
    | some pid, some d => some (.calcEnhanced pid d)
    | _, _ => none
  | .verifyClassic, .hash :: .text cs :: .comma :: ts =>
    match readNumber cs, readList ts with
    | some c, some d => some (.verifyClassic c d)
    | _, _ => none
  | .verifyEnhanced, .hash :: .text cs :: .comma :: .hash :: .text ps :: .comma :: ts =>
    match readNumber cs, readNumber ps, readList ts with
    | some c, some pid, some d => some (.verifyEnhanced c pid d)
    | _, _, _ => none
  | .encodePid, [.hash, .text cs] => (readNumber cs).map .encodePid
  | .decodePid, [.hash, .text cs] => (readNumber cs).map .decodePid
  | _, _ => none

/-- The directive's operand (30_encoding.md R70). -/
def readWord : List Token → Option AsmLine
  | [.text cs] => (readRawWord cs).map .word
  | _ => none

/-- A reading, or the verdict that the line has none of the forms. -/
def orMalformed (l : Option AsmLine) : Except AsmError (Option AsmLine) :=
  match l with
  | some x => .ok (some x)
  | none => .error .malformed

/-- The line of a token sequence: none for a line without tokens (30_encoding.md R70, R74). Mnemonics are matched without
regard to case, as R70 says; pseudo-instruction names and `.word` are matched so by DESIGN CHOICE, log entry 9. -/
def readLine : List Token → Except AsmError (Option AsmLine)
  | [] => .ok none
  | .text cs :: rest =>
    let name := cs.map upperChar
    match allMnemonics.find? (fun m => spelling m == name) with
    | some m => orMalformed (readCommand m rest)
    | none =>
      match allPseudoNames.find? (fun p => pseudoSpelling p == name) with
      | some p => orMalformed ((readPseudo p rest).map .pseudo)
      | none =>
        if name = ['.', 'W', 'O', 'R', 'D'] then orMalformed (readWord rest) else .error .unknownName
  | _ => .error .malformed

/-- The words of a source line; none for a blank line or a comment (30_encoding.md R70). -/
def assembleText (line : List Char) : Except AsmError (List Word) :=
  match readLine (tokens line []) with
  | .ok none => .ok []
  | .ok (some l) => assembleLine l
  | .error e => .error e

/-- The words of a program, line after line; the first refused line refuses the program (30_encoding.md R70, R75). -/
def assembleProgram : List (List Char) → Except AsmError (List Word)
  | [] => .ok []
  | l :: ls =>
    match assembleText l, assembleProgram ls with
    | .ok ws, .ok rest => .ok (ws ++ rest)
    | .error e, _ => .error e
    | _, .error e => .error e

end Sys2Proof.Machine
end

