-- ==== Sys2Proof/Machine/Reference.lean ====
section
/-! DEFINITION. The functions the spec says LINCK computes, written from its pseudocode: the accumulation
(40_checksum.md R102), its delayed-carry reading (R116), the identifier codec (41_protected_id.md R151, R154) and the
checksum operations (40_checksum.md R110 to R113). No step calls them; statements compare the machine with them. -/

namespace Sys2Proof.Machine

/-- `accumulate(seed, d)`, the carry of each addition folded at once (40_checksum.md R102). -/
def accumulate (seed : Byte) (d : List Byte) : Byte := d.foldl eacAdd seed

/-- The accumulator and pending carry of the delayed-carry reading (40_checksum.md R116). -/
structure Delayed where
  sum : Byte
  carry : BitVec 1
  deriving DecidableEq, Repr

/-- One byte of the delayed-carry reading: `s <- a' + b + cy`, `a' <- s[7:0]`, `cy <- s[8]` (40_checksum.md R116). -/
def delayedAdd (st : Delayed) (b : Byte) : Delayed :=
  let s : BitVec 9 := st.sum.setWidth 9 + b.setWidth 9 + st.carry.setWidth 9
  { sum := s.extractLsb' 0 8, carry := s.extractLsb' 8 1 }

/-- The delayed-carry state after every byte of `d` (40_checksum.md R116). -/
def delayedState (seed : Byte) (d : List Byte) : Delayed :=
  d.foldl delayedAdd { sum := seed, carry := 0#1 }

/-- `accumulate` under the delayed-carry reading: "After the last byte, `a' <- a' + cy`" (40_checksum.md R116). -/
def accumulateDelayed (seed : Byte) (d : List Byte) : Byte :=
  (delayedState seed d).sum + (delayedState seed d).carry.setWidth 8

/-- `encode(x)`: bit 7 `P1`, bit 6 `P0`, bits 5:0 the identifier (41_protected_id.md R151). -/
def encodePid (x : Byte) : Byte :=
  BitVec.ofBool (parity1 (fidOf x)) ++ BitVec.ofBool (parity0 (fidOf x)) ++ fidOf x

/-- `decode(p)`: the identifier, and whether the parity bits are those of its encoding (41_protected_id.md R154). -/
def decodePid (p : Byte) : Byte × Bool :=
  let fid := p &&& 0x3F#8
  (fid, parityBits (encodePid fid) == parityBits p)

/-- The classic checksum (40_checksum.md R110, 00_scope.md R14). -/
def classicChecksum (d : List Byte) : Byte := onesComplement (accumulate 0x00#8 d)

/-- The enhanced checksum (40_checksum.md R111, 00_scope.md R14). -/
def enhancedChecksum (pid : Byte) (d : List Byte) : Byte := onesComplement (accumulate pid d)

/-- The outcome of a classic verify (40_checksum.md R112). -/
def classicVerify (c : Byte) (d : List Byte) : Bool := verifyMatch (verifySum (accumulate 0x00#8 d) c)

/-- The outcome of an enhanced verify (40_checksum.md R113). -/
def enhancedVerify (c pid : Byte) (d : List Byte) : Bool := verifyMatch (verifySum (accumulate pid d) c)

end Sys2Proof.Machine
end

