-- ==== Sys2Proof/Machine/Run.lean ====
section
/-! DEFINITION. A run of LINCK (70_reset_and_hazards.md R210): edges taken one after another, and the words of a program
accepted in order. -/

namespace Sys2Proof.Machine

/-- What follows when the first part of a run gives this outcome. -/
def andThen (o : Host.Outcome State Fault Refusal) (k : State → Host.Outcome State Fault Refusal) :
    Host.Outcome State Fault Refusal :=
  match o with
  | .next s => k s
  | .fault r => .fault r
  | .refused r => .refused r

/-- Take these edges in order (20_memory.md R47). -/
def runEdges : List Edge → State → Host.Outcome State Fault Refusal
  | [], s => .next s
  | e :: es, s => andThen (takeEdge e s) (runEdges es)

/-- Accept these words in order, one an edge (70_reset_and_hazards.md R210). -/
def runWords (ws : List Word) : State → Host.Outcome State Fault Refusal :=
  runEdges (ws.map Edge.command)

/-- Accept the words of these commands in order. -/
def runInstrs (is : List Instr) : State → Host.Outcome State Fault Refusal :=
  runWords (is.map encode)

/-- A program's run: its words, from the reset state (70_reset_and_hazards.md R210). -/
def programRun (ws : List Word) : Host.Outcome State Fault Refusal := runWords ws State.reset

/-- The edges the host is to drive before those it was to drive already (log entry 1). -/
def loadEdges (es : List Edge) (s : State) : State := s.setPort (es ++ s.port)

/-- An idle cycle: no reset and no command (70_reset_and_hazards.md R204). -/
def Edge.isIdle (e : Edge) : Bool := !e.rst && !e.cmdValid

/-- The commands that write `ACC`: `CKINIT` and `CKADD` (10_state.md R21). -/
def feedsAcc : Decoded → Bool
  | .command (.ckinit _) => true
  | .command (.ckadd _) => true
  | .command .ckraw => false
  | .command .ckres => false
  | .command (.ckver _) => false
  | .command (.pidenc _) => false
  | .command (.piddec _) => false
  | .illegal _ => false

/-- An edge that can write `ACC`: a reset, or a `CKINIT` or `CKADD` (10_state.md R20, R21). -/
def Edge.feedsAcc (e : Edge) : Bool := e.rst || (e.cmdValid && Machine.feedsAcc (decode e.cmd))

end Sys2Proof.Machine
end

