-- ==== Sys2Proof/Safety.lean ====
section
/-! DEFINITION. What counts as a safe run: one that ends with `ERR = 0`, so that no illegal word was accepted
(60_exceptions.md R182), and the invariant under which every run is one. -/

namespace Sys2Proof.Machine

/-- No illegal word has been accepted since reset (60_exceptions.md R182). -/
def State.errorFree (s : State) : Bool := !s.err

/-- An edge that cannot raise `IllegalCommand`: a reset (70_reset_and_hazards.md R201), an idle cycle (R204), or a legal
word (R211, "a legal word, if it wants `ERR = 0`"). -/
def Edge.harmless (e : Edge) : Bool := e.rst || !e.cmdValid || legalWord e.cmd

/-- `ERR` is clear, and the host drives harmless edges only. -/
def State.clean (s : State) : Bool := s.errorFree && s.port.all Edge.harmless

end Sys2Proof.Machine
end

