-- ==== Sys2Proof/Certificates/Slice0/Obligations.lean ====
section
/-! DEFINITION. The statements about LINCK, from the numbered rules of spec/. A run's edges are the spec's
(30_encoding.md R60, 70_reset_and_hazards.md R210); that State holds the edges still to come is the model's choice (log
entry 1), and the statements that rest on it say so. `PIDTAB` is a constant (10_state.md R26), so "every byte of memory
reads as before" holds of every command by the type of `memReadPidtab`, which takes no state. -/

open Sys2Proof Sys2Proof.Machine

/-! ### Encoding and decoding -/

/-- Encoding a command and decoding the word gives the command back, and a legal word is the encoding of the one command
it decodes to (30_encoding.md R61, R62, R69, R72). -/
def Obligations.DecodeAndEncodeAgree : Prop :=
  (∀ i : Instr, i.wellFormed = true → decode (encode i) = .command i) ∧
  (∀ (w : Word) (i : Instr), decode w = .command i → encode i = w)

/-- 30_encoding.md R63: a word is the command of a row exactly when `(w & mask) == match`, its operand is `DATA`, and no
word matches two rows. -/
def Obligations.OpcodeMapIsTheDecoder : Prop :=
  ∀ w : Word,
    (decode w).instr? =
      (opcodeTable.find? (fun r => r.covers w)).map (fun r => instrOf r.mnemonic (w.extractLsb' 0 8)) ∧
    (∀ r ∈ opcodeTable, ∀ r' ∈ opcodeTable,
      w &&& r.mask = r.matchBits → w &&& r'.mask = r'.matchBits → r = r')

/-- 30_encoding.md R66: which words are illegal, that there are 64,254 of them and 1,282 legal ones, and that an illegal
word raises `IllegalCommand`, whatever the state. -/
def Obligations.IllegalWordsAreExactlyThese : Prop :=
  (∀ w : Word, (∃ r, decode w = .illegal r) ↔
    (w.extractLsb' 12 4 = 0x0#4 ∨ 0x8#4 ≤ w.extractLsb' 12 4 ∨ w.extractLsb' 8 4 ≠ 0x0#4 ∨
      ((w.extractLsb' 12 4 = 0x3#4 ∨ w.extractLsb' 12 4 = 0x4#4) ∧ w.extractLsb' 0 8 ≠ 0x00#8))) ∧
  ((List.range 65536).filter (fun n => legalWord (BitVec.ofNat 16 n))).length = 1282 ∧
  ((List.range 65536).filter (fun n => !legalWord (BitVec.ofNat 16 n))).length = 64254 ∧
  (∀ (w : Word) (r : IllegalReason) (s : State),
    decode w = .illegal r → acceptWord w s = .next { s with err := true })

/-- 30_encoding.md R69 in numbers: the checks in their order, then the command of the opcode; and whatever the reason,
the hardware records only `ERR = 1`. -/
def Obligations.DecodingChecksInOrder : Prop :=
  (∀ w : Word, decode w =
    (if w.toNat / 4096 = 0 ∨ 8 ≤ w.toNat / 4096 then .illegal .badOpcode
     else if w.toNat / 256 % 16 ≠ 0 then .illegal .reservedBitsSet
     else match w.toNat / 4096 with
       | 1 => .command (.ckinit (BitVec.ofNat 8 w.toNat))
       | 2 => .command (.ckadd (BitVec.ofNat 8 w.toNat))
       | 3 => if w.toNat % 256 = 0 then .command .ckraw else .illegal .dataMustBeZero
       | 4 => if w.toNat % 256 = 0 then .command .ckres else .illegal .dataMustBeZero
       | 5 => .command (.ckver (BitVec.ofNat 8 w.toNat))
       | 6 => .command (.pidenc (BitVec.ofNat 8 w.toNat))
       | _ => .command (.piddec (BitVec.ofNat 8 w.toNat)))) ∧
  (∀ (w : Word) (r : IllegalReason) (s : State),
    decode w = .illegal r → acceptWord w s = .next { s with err := true })

/-- Words of 95_test_vectors.md section 2.7, and one word of every command written out bit by bit from the patterns
of 30_encoding.md R63. -/
def Obligations.SampleWordsDecode : Prop :=
  decode 0b0001000010111111#16 = .command (.ckinit 0xBF#8) ∧
  decode 0b0010000010010011#16 = .command (.ckadd 0x93#8) ∧
  decode 0b0011000000000000#16 = .command .ckraw ∧
  decode 0b0100000000000000#16 = .command .ckres ∧
  decode 0b0101000011100110#16 = .command (.ckver 0xE6#8) ∧
  decode 0b0110000011000000#16 = .command (.pidenc 0xC0#8) ∧
  decode 0b0111000011111111#16 = .command (.piddec 0xFF#8) ∧
  decode 0x0000#16 = .illegal .badOpcode ∧
  decode 0x9100#16 = .illegal .badOpcode ∧
  decode 0x7FFF#16 = .illegal .reservedBitsSet ∧
  decode 0x3101#16 = .illegal .reservedBitsSet ∧
  decode 0x3001#16 = .illegal .dataMustBeZero ∧
  decode 0x40FF#16 = .illegal .dataMustBeZero

/-- 30_encoding.md R72: the word of each command's spelling, the immediate in `DATA`. -/
def Obligations.CommandSpellingsGiveTheseWords : Prop :=
  (∀ n : Nat, n < 256 →
    assembleLine (.command .ckinit (some n)) = .ok [0x1000#16 ||| BitVec.ofNat 16 n] ∧
    assembleLine (.command .ckadd (some n)) = .ok [0x2000#16 ||| BitVec.ofNat 16 n] ∧
    assembleLine (.command .ckver (some n)) = .ok [0x5000#16 ||| BitVec.ofNat 16 n] ∧
    assembleLine (.command .pidenc (some n)) = .ok [0x6000#16 ||| BitVec.ofNat 16 n] ∧
    assembleLine (.command .piddec (some n)) = .ok [0x7000#16 ||| BitVec.ofNat 16 n]) ∧
  assembleLine (.command .ckraw none) = .ok [0x3000#16] ∧
  assembleLine (.command .ckres none) = .ok [0x4000#16]

/-! ### The commands, each with its next state -/

/-- 40_checksum.md R103: `CKINIT #s` is the word `0x1000 | s`, and sets `ACC` to `s`, for every seed and in every state;
nothing else changes. -/
def Obligations.CkinitLoadsTheSeed : Prop :=
  ∀ (seed : Byte) (s : State),
    decode (0x1000#16 ||| seed.setWidth 16) = .command (.ckinit seed) ∧
    exec (.ckinit seed) s = .next { s with acc := seed }

/-- 40_checksum.md R104: `CKADD #b` is the word `0x2000 | b`, and sets `ACC` to the sum modulo 256 plus its carry, with no
error and nothing else changed. -/
def Obligations.CkaddFoldsTheCarry : Prop :=
  ∀ (b : Byte) (s : State),
    decode (0x2000#16 ||| b.setWidth 16) = .command (.ckadd b) ∧
    exec (.ckadd b) s =
      .next { s with acc := BitVec.ofNat 8 ((s.acc.toNat + b.toNat) % 256 + (s.acc.toNat + b.toNat) / 256) }

/-- 40_checksum.md R105: `CKRAW` is the word `0x3000` alone, copies `ACC` into `RES` and changes nothing else; a nonzero
`DATA` makes the word illegal. -/
def Obligations.CkrawCopiesTheAccumulator : Prop :=
  decode 0x3000#16 = .command .ckraw ∧
  (∀ d : Byte, d ≠ 0x00#8 → decode (0x3000#16 ||| d.setWidth 16) = .illegal .dataMustBeZero) ∧
  (∀ s : State, exec .ckraw s = .next { s with res := s.acc }) ∧
  (∀ (seed : Byte) (s : State), runInstrs [.ckinit seed, .ckraw] s = .next { s with acc := seed, res := seed })

/-- 40_checksum.md R106: `CKRES` is the word `0x4000` alone, puts `0xFF ^ ACC` into `RES` and changes nothing else; `ACC`
stays, so it may be repeated and a later `CKADD` continues the same sum. -/
def Obligations.CkresGivesTheComplement : Prop :=
  decode 0x4000#16 = .command .ckres ∧
  (∀ d : Byte, d ≠ 0x00#8 → decode (0x4000#16 ||| d.setWidth 16) = .illegal .dataMustBeZero) ∧
  (∀ s : State, exec .ckres s = .next { s with res := 0xFF#8 ^^^ s.acc }) ∧
  (∀ s : State, runInstrs [.ckres, .ckres] s = runInstrs [.ckres] s) ∧
  (∀ (b : Byte) (s : State),
    runInstrs [.ckres, .ckadd b] s = .next { s with acc := eacAdd s.acc b, res := 0xFF#8 ^^^ s.acc }) ∧
  (∀ (seed : Byte) (d : List Byte) (s : State),
    ∃ t, runInstrs (.ckinit seed :: (addAll d ++ [.ckres])) s = .next t ∧
      (t.res = 0xFF#8 ↔ seed.toNat + (d.map BitVec.toNat).sum = 0))

/-- 40_checksum.md R107: `CKVER #c` is the word `0x5000 | c`, puts `(ACC + c) mod 256` into `RES`, with no end-around
carry, and sets `OK` exactly when that is `0xFF`; `ACC` and `ERR` are unchanged. -/
def Obligations.CkverAddsWithoutTheCarry : Prop :=
  ∀ (c : Byte) (s : State),
    decode (0x5000#16 ||| c.setWidth 16) = .command (.ckver c) ∧
    exec (.ckver c) s =
      .next { s with
        res := BitVec.ofNat 8 ((s.acc.toNat + c.toNat) % 256)
        ok := decide ((s.acc.toNat + c.toNat) % 256 = 255) }

/-- 41_protected_id.md R153: `PIDENC #f` is the word `0x6000 | f` and puts the table entry of `f mod 64`, which is
`encode(f)`, into `RES`; bits 7:6 of `f` are ignored, the result holds `f[5:0]`, and nothing else changes. -/
def Obligations.PidencReadsTheTable : Prop :=
  ∀ (f : Byte) (s : State),
    decode (0x6000#16 ||| f.setWidth 16) = .command (.pidenc f) ∧
    exec (.pidenc f) s = .next { s with res := memReadPidtab (BitVec.ofNat 6 (f.toNat % 64)) } ∧
    memReadPidtab (BitVec.ofNat 6 (f.toNat % 64)) = encodePid f ∧
    (encodePid f).toNat % 64 = f.toNat % 64

/-- 41_protected_id.md R155: `PIDDEC #p` is the word `0x7000 | p`, puts `p mod 64` into `RES` whatever the parity, and
sets `OK` exactly when the table entry's bits 7:6 are those of `p`; `ACC` and `ERR` are unchanged. For each identifier
exactly one value of bits 7:6 gives `OK = 1`. -/
def Obligations.PiddecChecksTheParity : Prop :=
  (∀ (p : Byte) (s : State),
    decode (0x7000#16 ||| p.setWidth 16) = .command (.piddec p) ∧
    exec (.piddec p) s =
      .next { s with
        res := BitVec.ofNat 8 (p.toNat % 64)
        ok := decide ((memReadPidtab (BitVec.ofNat 6 (p.toNat % 64))).toNat / 64 = p.toNat / 64) }) ∧
  (∀ (f : Fid) (s : State), ∃ top : BitVec 2, ∀ x : BitVec 2,
    ∃ t, exec (.piddec (x ++ f)) s = .next t ∧ (t.ok = true ↔ x = top))

/-! ### Frames -/

/-- `CKINIT` and `CKADD` change `ACC` alone (10_state.md R30). -/
def Obligations.AccumulatorCommandsFrame : Prop :=
  ∀ (i : Instr) (d : Byte) (s t : State), (i = .ckinit d ∨ i = .ckadd d) → exec i s = .next t →
    t.res = s.res ∧ t.ok = s.ok ∧ t.err = s.err ∧ t.port = s.port

/-- `CKRAW`, `CKRES` and `PIDENC` change `RES` alone (10_state.md R30). -/
def Obligations.ResultCommandsFrame : Prop :=
  ∀ (i : Instr) (d : Byte) (s t : State), (i = .ckraw ∨ i = .ckres ∨ i = .pidenc d) → exec i s = .next t →
    t.acc = s.acc ∧ t.ok = s.ok ∧ t.err = s.err ∧ t.port = s.port

/-- `CKVER` and `PIDDEC` change `RES` and `OK` alone (10_state.md R30). -/
def Obligations.CheckCommandsFrame : Prop :=
  ∀ (i : Instr) (d : Byte) (s t : State), (i = .ckver d ∨ i = .piddec d) → exec i s = .next t →
    t.acc = s.acc ∧ t.err = s.err ∧ t.port = s.port

/-- No command raises an error, whatever its operand and the state: each answers a next state in which `ERR` is as it was
(40_checksum.md R118, 60_exceptions.md R183). -/
def Obligations.NoCommandRaisesAnError : Prop :=
  ∀ (i : Instr) (s : State), ∃ t, exec i s = .next t ∧ t.err = s.err

/-! ### What an edge does -/

/-- At an edge with `rst = 1` every element takes its reset value, whatever `cmd_valid`, `cmd` and the state are
(70_reset_and_hazards.md R200, R201). That the edge leaves the edges still to come as they are is the MODEL's choice, log
entry 1. -/
def Obligations.ResetEdgeClearsEverything : Prop :=
  ∀ (v : Bool) (c : Word) (s : State),
    takeEdge { rst := true, cmdValid := v, cmd := c } s =
      .next { acc := 0x00#8, res := 0x00#8, ok := false, err := false, port := s.port }

/-- 10_state.md R29: the reset values; reading `RES` (and every other output) at reset gives zero; and the first
computation after reset is a classic one even without `CKINIT`. -/
def Obligations.ResetStateIsAllZero : Prop :=
  State.reset.acc = 0x00#8 ∧ State.reset.res = 0x00#8 ∧ State.reset.ok = false ∧ State.reset.err = false ∧
  outputs State.reset = { accO := 0x00#8, resO := 0x00#8, okO := false, errO := false } ∧
  statusView State.reset = 0x00#8 ∧ causeCode State.reset = 0 ∧
  (∀ d : List Byte, ∃ t, runInstrs (addAll d ++ [.ckres]) State.reset = .next t ∧ t.res = classicChecksum d)

/-- While `rst` stays 1 the state stays at the reset values (70_reset_and_hazards.md R200), and a reset in the middle
restarts the run (R210, its last sentence): what came before it leaves no trace. That a run with such a reset is modelled is
the MODEL's choice, log entry 7, and that a reset leaves the edges still to come as they are is log entry 1. -/
def Obligations.ResetRestartsTheRun : Prop :=
  (∀ (es : List Edge) (s : State), es ≠ [] → (∀ e ∈ es, e.rst = true) →
    runEdges es s = .next { State.reset with port := s.port }) ∧
  (∀ (before after : List Edge) (e : Edge) (s : State), e.rst = true →
    runEdges (before ++ e :: after) s = runEdges after { State.reset with port := s.port })

/-- 70_reset_and_hazards.md R204: an idle edge changes nothing, and idle edges put into a run, anywhere and any number of
them, leave no trace. -/
def Obligations.IdleEdgesLeaveNoTrace : Prop :=
  (∀ (c : Word) (s : State), takeEdge { rst := false, cmdValid := false, cmd := c } s = .next s) ∧
  (∀ (es : List Edge) (s : State), runEdges es s = runEdges (es.filter (fun e => e.rst || e.cmdValid)) s)

/-- 60_exceptions.md R181: an illegal word sets `ERR` and changes nothing else. -/
def Obligations.IllegalWordSetsErrAlone : Prop :=
  ∀ (w : Word) (r : IllegalReason) (s : State), decode w = .illegal r →
    takeEdge { rst := false, cmdValid := true, cmd := w } s = .next { s with err := true }

/-- After an illegal word the cause code is 1, and it is 0 exactly while `ERR = 0` (60_exceptions.md R180). Any illegal
word accepted while `ERR = 1`, the same as the first or another, changes nothing (R188). -/
def Obligations.IllegalCommandCauseCode : Prop :=
  (∀ (w : Word) (r : IllegalReason) (s : State), decode w = .illegal r →
    ∃ t, acceptWord w s = .next t ∧ causeCode t = 1) ∧
  (∀ (w : Word) (r : IllegalReason) (s : State), s.err = true → decode w = .illegal r → acceptWord w s = .next s) ∧
  (∀ s : State, causeCode s = 0 ↔ s.err = false)

/-- `ACC` changes only at a reset, a `CKINIT` or a `CKADD` (10_state.md R20, R21). -/
def Obligations.OnlyInitAndAddWriteAcc : Prop :=
  ∀ (e : Edge) (s t : State), takeEdge e s = .next t → t.acc ≠ s.acc →
    e.rst = true ∨ (e.cmdValid = true ∧ ∃ d, decode e.cmd = .command (.ckinit d) ∨ decode e.cmd = .command (.ckadd d))

/-- `RES` changes only at a reset or one of the five commands that produce a byte (10_state.md R20, R22). -/
def Obligations.OnlyResultCommandsWriteRes : Prop :=
  ∀ (e : Edge) (s t : State), takeEdge e s = .next t → t.res ≠ s.res →
    e.rst = true ∨ (e.cmdValid = true ∧
      (decode e.cmd = .command .ckraw ∨ decode e.cmd = .command .ckres ∨
       ∃ d, decode e.cmd = .command (.ckver d) ∨ decode e.cmd = .command (.pidenc d) ∨
         decode e.cmd = .command (.piddec d)))

/-- `OK` changes only at a reset, a `CKVER` or a `PIDDEC` (10_state.md R20, R23). -/
def Obligations.OnlyChecksWriteOk : Prop :=
  ∀ (e : Edge) (s t : State), takeEdge e s = .next t → t.ok ≠ s.ok →
    e.rst = true ∨ (e.cmdValid = true ∧ ∃ d, decode e.cmd = .command (.ckver d) ∨ decode e.cmd = .command (.piddec d))

/-- 10_state.md R24: an illegal word sets `ERR` and a reset clears it; `ERR` goes from 0 to 1 only at an illegal word, and
from 1 to 0 only at a reset. -/
def Obligations.OnlyIllegalWordsAndResetWriteErr : Prop :=
  ∀ (e : Edge) (s t : State), takeEdge e s = .next t →
    (s.err = false → t.err = true → e.rst = false ∧ e.cmdValid = true ∧ ∃ r, decode e.cmd = .illegal r) ∧
    (s.err = true → t.err = false → e.rst = true) ∧
    (e.rst = false → e.cmdValid = true → (∃ r, decode e.cmd = .illegal r) → t.err = true) ∧
    (e.rst = true → t.err = false)

/-! ### Runs -/

/-- Commands take effect one at a time, in the order they are accepted, each on the state all earlier ones left, and none
sees a later one (20_memory.md R47): the run of a command is its meaning, a command appended to a run is its meaning on the
state the run left, and so are the commands of two edges taken by two steps (for the steps, the edge list is the MODEL's
choice, log entry 1). -/
def Obligations.EdgesTakeEffectInOrder : Prop :=
  (∀ (i j : Instr) (s : State), runInstrs [i, j] s = andThen (exec i s) (exec j)) ∧
  (∀ (is : List Instr) (j : Instr) (s : State), runInstrs (is ++ [j]) s = andThen (runInstrs is s) (exec j)) ∧
  (∀ (s : State) (w v : Word) (rest : List Edge) (i j : Instr),
    s.port = { rst := false, cmdValid := true, cmd := w } :: { rst := false, cmdValid := true, cmd := v } :: rest →
    decode w = .command i → decode v = .command j →
    Host.Core.run Sys2Proof.core 2 s =
      andThen (exec i { s with port := { rst := false, cmdValid := true, cmd := v } :: rest })
        (fun t => exec j { t with port := rest }))

/-- Over a run without reset, `ERR` at the end is `ERR` at the start, or set because some accepted word was illegal: "`ERR
= 0` at the end" means that no illegal word was accepted (60_exceptions.md R182). -/
def Obligations.ErrRecordsEveryIllegalWord : Prop :=
  ∀ (es : List Edge) (s : State), (∀ e ∈ es, e.rst = false) →
    ∃ t, runEdges es s = .next t ∧
      (t.err = true ↔ s.err = true ∨ ∃ e ∈ es, e.cmdValid = true ∧ ∃ r, decode e.cmd = .illegal r)

/-- `ERR` neither blocks nor changes a command (60_exceptions.md R182): runs from two states that differ in `ERR` alone
end in states that differ in `ERR` alone. -/
def Obligations.ErrNeitherBlocksNorChanges : Prop :=
  ∀ (es : List Edge) (s : State) (b : Bool),
    ∃ t t', runEdges es s = .next t ∧ runEdges es { s with err := b } = .next t' ∧
      t'.acc = t.acc ∧ t'.res = t.res ∧ t'.ok = t.ok ∧ t'.port = t.port

/-- The final `ACC` of a run depends on its resets, `CKINIT`s and `CKADD`s and on the first `ACC` alone: every other edge
may be left out, and `RES`, `OK` and `ERR` may be anything (10_state.md R21, 41_protected_id.md R159). -/
def Obligations.AccumulatorIsIndependent : Prop :=
  ∀ (es : List Edge) (s s' : State), s'.acc = s.acc →
    ∃ t t', runEdges es s = .next t ∧ runEdges (es.filter Edge.feedsAcc) s' = .next t' ∧ t'.acc = t.acc

/-! ### The step of the model, over the edges State holds (log entry 1) -/

/-- A step takes the edge in front, and with none left nothing changes (the MODEL's choice, log entry 1). -/
def Obligations.StepTakesTheEdgeInFront : Prop :=
  (∀ s : State, s.port = [] → step s = .next s) ∧
  (∀ (s : State) (e : Edge) (rest : List Edge), s.port = e :: rest → step s = takeEdge e { s with port := rest })

/-- A step whose edge carries a legal word is the meaning of the command it encodes, on the state with that edge taken off
the front (the edge list is the MODEL's choice, log entry 1). -/
def Obligations.StepRunsTheDecodedCommand : Prop :=
  ∀ (s : State) (w : Word) (rest : List Edge) (i : Instr),
    s.port = { rst := false, cmdValid := true, cmd := w } :: rest → decode w = .command i →
    step s = exec i { s with port := rest }

/-- A table word placed with `withFetchWord` is run by the very next step (log entry 2). -/
def Obligations.PlacedWordRunsNext : Prop :=
  ∀ (s : State) (w : Nat) (i : Instr), w < 65536 → decodeTableWord 16 w = some i →
    decode (BitVec.ofNat 16 w) = .command i ∧ step (s.withFetchWord 16 w) = exec i s

/-- No run of the machine stops: any number of steps from any state answers a next state. It rests on two choices of the
MODEL: an illegal word is a next state with `ERR` set, where R182 calls it a fault of a model (log entry 3), and a step with no
edge left is an idle one (log entry 1). -/
def Obligations.NoRunEverStops : Prop :=
  ∀ (n : Nat) (s : State), ∃ t, Host.Core.run Sys2Proof.core n s = .next t

/-- The host's machine, stepping over the edges State holds, does what the spec's run of these edges does (R210; the edge
list is the MODEL's choice, log entry 1). -/
def Obligations.MachineRunsTheSpecsRun : Prop :=
  ∀ (es : List Edge) (s : State), Host.Core.run Sys2Proof.core es.length (loadEdges es s) = runEdges es s

/-- A machine whose `ERR` is clear and whose host drives resets, idle cycles and legal words only stays so at every step
(R182, R211; the edge list is the MODEL's choice, log entry 1). -/
def Obligations.EveryStepKeepsClean : Prop :=
  ∀ s s' : State, s.clean = true → step s = .next s' → s'.clean = true

/-- The reset state is clean: `ERR = 0` (70_reset_and_hazards.md R200), and the list of edges still to come, which is empty at
reset by the MODEL's choice (log entry 1), holds no illegal word. -/
def Obligations.ResetIsClean : Prop := State.reset.clean = true

/-! ### The adder and the accumulation -/

/-- 40_checksum.md R100, R101: the adder folds the carry in once, the fold never carries again, and the sum is zero only
of zeros. -/
def Obligations.EndAroundCarryFoldsOnce : Prop :=
  ∀ a b : Byte,
    (eacAdd a b).toNat = (a.toNat + b.toNat) % 256 + (a.toNat + b.toNat) / 256 ∧
    (eacAdd a b = 0x00#8 ↔ a = 0x00#8 ∧ b = 0x00#8)

/-- The corner cases of 40_checksum.md R104: adding `0x00` never changes `ACC`, adding `0xFF` changes it only from `0x00`,
to `0xFF`. -/
def Obligations.CkaddOfZeroAndOfAllOnes : Prop :=
  ∀ s : State, exec (.ckadd 0x00#8) s = .next s ∧
    (s.acc ≠ 0x00#8 → exec (.ckadd 0xFF#8) s = .next s) ∧
    (s.acc = 0x00#8 → exec (.ckadd 0xFF#8) s = .next { s with acc := 0xFF#8 })

/-- 40_checksum.md R108, the closed form of the accumulation, with its two extreme values. -/
def Obligations.AccumulationClosedForm : Prop :=
  ∀ (seed : Byte) (d : List Byte) (S : Nat), S = seed.toNat + (d.map BitVec.toNat).sum →
    S ≤ 255 * (d.length + 1) ∧
    (accumulate seed d).toNat = (if S = 0 then 0 else 1 + (S - 1) % 255) ∧
    (accumulate seed d = 0x00#8 ↔ seed = 0x00#8 ∧ ∀ b ∈ d, b = 0x00#8) ∧
    (accumulate seed d = 0xFF#8 ↔ 0 < S ∧ S % 255 = 0) ∧
    (S % 255 ≠ 0 → (accumulate seed d).toNat = S % 255)

/-- 40_checksum.md R109: the order of the bytes does not matter, nor whether a byte is the seed. -/
def Obligations.AccumulationIgnoresOrder : Prop :=
  (∀ (seed : Byte) (d d' : List Byte), d.Perm d' → accumulate seed d = accumulate seed d') ∧
  (∀ (s b : Byte) (d : List Byte), accumulate s (b :: d) = accumulate b (s :: d))

/-- 40_checksum.md R116: under the delayed-carry reading, after every byte the accumulator and the pending carry add up to
the folded accumulator, within 8 bits, and the results agree. -/
def Obligations.DelayedCarryGivesTheSame : Prop :=
  ∀ (seed : Byte) (d : List Byte),
    (delayedState seed d).sum.toNat + (delayedState seed d).carry.toNat = (accumulate seed d).toNat ∧
    (delayedState seed d).sum.toNat + (delayedState seed d).carry.toNat ≤ 255 ∧
    accumulateDelayed seed d = accumulate seed d

/-! ### The public operations -/

/-- 40_checksum.md R110: `CALC_CLASSIC` from any state, of any number of bytes, and its corner cases. -/
def Obligations.CalcClassicComputesTheChecksum : Prop :=
  (∀ (d : List Byte) (s : State), runInstrs (expand (.calcClassic d)) s =
    .next { s with acc := accumulate 0x00#8 d, res := ~~~(accumulate 0x00#8 d) }) ∧
  (∀ n : Nat, ~~~(accumulate 0x00#8 (List.replicate n 0x00#8)) = 0xFF#8) ∧
  (∀ n : Nat, ~~~(accumulate 0x00#8 (List.replicate n 0xFF#8)) = (if n = 0 then 0xFF#8 else 0x00#8))

/-- 40_checksum.md R111: `CALC_ENHANCED` from any state, of any seed and any number of bytes, and its corner cases. -/
def Obligations.CalcEnhancedComputesTheChecksum : Prop :=
  ∀ (pid : Byte) (d : List Byte) (s : State),
    runInstrs (expand (.calcEnhanced pid d)) s =
      .next { s with acc := accumulate pid d, res := ~~~(accumulate pid d) } ∧
    runInstrs (expand (.calcEnhanced pid [])) s = .next { s with acc := pid, res := ~~~pid } ∧
    runInstrs (expand (.calcEnhanced 0x00#8 d)) s = runInstrs (expand (.calcClassic d)) s

/-- 40_checksum.md R112: `VERIFY_CLASSIC` from any state. -/
def Obligations.VerifyClassicChecksTheChecksum : Prop :=
  ∀ (c : Byte) (d : List Byte) (s : State),
    runInstrs (expand (.verifyClassic c d)) s =
      .next { s with
        acc := accumulate 0x00#8 d
        res := BitVec.ofNat 8 (((accumulate 0x00#8 d).toNat + c.toNat) % 256)
        ok := decide (((accumulate 0x00#8 d).toNat + c.toNat) % 256 = 255) }

/-- 40_checksum.md R113: `VERIFY_ENHANCED` from any state. -/
def Obligations.VerifyEnhancedChecksTheChecksum : Prop :=
  ∀ (c pid : Byte) (d : List Byte) (s : State),
    runInstrs (expand (.verifyEnhanced c pid d)) s =
      .next { s with
        acc := accumulate pid d
        res := BitVec.ofNat 8 (((accumulate pid d).toNat + c.toNat) % 256)
        ok := decide (((accumulate pid d).toNat + c.toNat) % 256 = 255) }

/-- 40_checksum.md R114: `CKVER #c` sets `OK` exactly when `CKRES` would give `c`; so a verify of the computed checksum
always passes, classic and enhanced. -/
def Obligations.VerifyAgreesWithCompare : Prop :=
  (∀ a c : Byte, (a.toNat + c.toNat) % 256 = 255 ↔ c = ~~~a) ∧
  (∀ (c : Byte) (s : State), ∃ t u, exec (.ckver c) s = .next t ∧ exec .ckres s = .next u ∧ (t.ok = true ↔ c = u.res)) ∧
  (∀ (d : List Byte) (s : State), ∃ t u, runInstrs (expand (.calcClassic d)) s = .next t ∧
    runInstrs (expand (.verifyClassic t.res d)) t = .next u ∧ u.ok = true) ∧
  (∀ (pid : Byte) (d : List Byte) (s : State), ∃ t u, runInstrs (expand (.calcEnhanced pid d)) s = .next t ∧
    runInstrs (expand (.verifyEnhanced t.res pid d)) t = .next u ∧ u.ok = true)

/-- 40_checksum.md R115: with one byte changed, a verify against the old checksum passes exactly for the swap of `0x00` and
`0xFF` with a nonzero rest of the sum; with the checksum changed it never passes. -/
def Obligations.VerifyDetectsAllButTheSwap : Prop :=
  (∀ (seed x y : Byte) (pre post : List Byte) (s : State), x ≠ y →
    ∃ t, runInstrs (expand (.verifyEnhanced (enhancedChecksum seed (pre ++ x :: post)) seed (pre ++ y :: post))) s =
        .next t ∧
      (t.ok = true ↔
        ((x = 0x00#8 ∧ y = 0xFF#8) ∨ (x = 0xFF#8 ∧ y = 0x00#8)) ∧
        0 < seed.toNat + (pre.map BitVec.toNat).sum + (post.map BitVec.toNat).sum)) ∧
  (∀ (c seed : Byte) (d : List Byte) (s : State), c ≠ enhancedChecksum seed d →
    ∃ t, runInstrs (expand (.verifyEnhanced c seed d)) s = .next t ∧ t.ok = false) ∧
  (∀ (c : Byte) (d : List Byte) (s : State),
    runInstrs (expand (.verifyClassic c d)) s = runInstrs (expand (.verifyEnhanced c 0x00#8 d)) s)

/-! ### Protected identifiers -/

/-- 41_protected_id.md R150, R151, R152: the parity equations, the encoding built of them for every byte, and that every
entry of the table is the encoding of its address. -/
def Obligations.TableHoldsTheParityEncoding : Prop :=
  (∀ x : Byte, encodePid x =
    BitVec.ofBool (!(x.getLsbD 1 ^^ x.getLsbD 3 ^^ x.getLsbD 4 ^^ x.getLsbD 5)) ++
    BitVec.ofBool (x.getLsbD 0 ^^ x.getLsbD 1 ^^ x.getLsbD 2 ^^ x.getLsbD 4) ++ x.extractLsb' 0 6) ∧
  (∀ f : Fid, memReadPidtab f = encodePid (f.setWidth 8))

/-- 41_protected_id.md R156: the encoding, and so `PIDENC`, does not see bits 7:6. -/
def Obligations.EncodingIgnoresTheTopBits : Prop :=
  (∀ x : Byte, encodePid x = encodePid (x &&& 0x3F#8)) ∧
  (∀ (x : Byte) (s : State), exec (.pidenc x) s = exec (.pidenc (x &&& 0x3F#8)) s) ∧
  encodePid 0x40#8 = 0x80#8 ∧ encodePid 0x00#8 = 0x80#8 ∧ encodePid 0xFF#8 = 0xBF#8 ∧ encodePid 0x3F#8 = 0xBF#8

/-- `PIDDEC` gives the identifier and the verdict of the decoding function (41_protected_id.md R154, R155). -/
def Obligations.PiddecIsTheDecodingFunction : Prop :=
  ∀ (p : Byte) (s : State),
    exec (.piddec p) s = .next { s with res := (decodePid p).1, ok := (decodePid p).2 }

/-- 41_protected_id.md R157: decoding what was encoded gives the identifier back with valid parity, as functions and as
the commands `PIDENC #x` and `PIDDEC` of the `RES` it produced. -/
def Obligations.EncodeThenDecodeRoundTrip : Prop :=
  ∀ (x : Byte) (s : State),
    decodePid (encodePid x) = (x &&& 0x3F#8, true) ∧
    ∃ t u, runInstrs (expand (.encodePid x)) s = .next t ∧ runInstrs (expand (.decodePid t.res)) t = .next u ∧
      u.res = x &&& 0x3F#8 ∧ u.ok = true

/-- 41_protected_id.md R158: `OK` exactly for the table's entries, 64 valid bytes, every single-bit error detected, and a
two-bit error that is not. -/
def Obligations.DecoderDetectsSingleBitErrors : Prop :=
  (∀ (p : Byte) (s : State), ∃ t, exec (.piddec p) s = .next t ∧
    (t.ok = true ↔ p = memReadPidtab (p.extractLsb' 0 6))) ∧
  ((List.range 256).filter (fun n => (decodePid (BitVec.ofNat 8 n)).2)).length = 64 ∧
  (∀ (p : Byte) (k : Nat) (s : State), p = memReadPidtab (p.extractLsb' 0 6) → k < 8 →
    ∃ t, exec (.piddec (p ^^^ (0x01#8 <<< k))) s = .next t ∧ t.ok = false) ∧
  (0x80#8 ^^^ 0x41#8 = 0xC1#8 ∧ 0xC1#8 = memReadPidtab 0x01#6 ∧ (decodePid 0xC1#8).2 = true)

/-! ### Views, and the assembler -/

/-- The output ports show the elements, and `STATUS` packs `OK` in bit 0 and `ERR` in bit 1 with zeros above
(30_encoding.md R60, 10_state.md R25). -/
def Obligations.ViewsShowTheState : Prop :=
  ∀ s : State,
    outputs s = { accO := s.acc, resO := s.res, okO := s.ok, errO := s.err } ∧
    (statusView s).getLsbD 0 = s.ok ∧ (statusView s).getLsbD 1 = s.err ∧
    ∀ k, 2 ≤ k → (statusView s).getLsbD k = false

/-- The transcriber takes exactly the caller's length of the caller's buffer, and refuses a length above 255 or beyond the
buffer (00_scope.md R13, 30_encoding.md R75). -/
def Obligations.CallerLengthIsTheLength : Prop :=
  ∀ (buffer : List Byte) (n : Nat) (d : List Byte),
    callerBytes buffer n = .ok d ↔ n ≤ 255 ∧ d.length = n ∧ d <+: buffer

/-- The assembler's limits in numbers, and the words of what it takes: `CKRAW` and `CKRES` without an immediate alone, the
other commands with one below 256 alone (30_encoding.md R70, R71), a `.word` below 65536 (R70), a pseudo-instruction whose
numbers are below 256 and whose list has at most 255 entries (R71, R74, R75). It refuses every other line, so what it takes
are the well-formed lines. -/
def Obligations.AssemblerTakesTheWellFormed : Prop :=
  (∀ (imm : Option Nat) (ws : List Word),
    (assembleLine (.command .ckraw imm) = .ok ws ↔ imm = none ∧ ws = [0x3000#16]) ∧
    (assembleLine (.command .ckres imm) = .ok ws ↔ imm = none ∧ ws = [0x4000#16])) ∧
  (∀ (m : Mnemonic) (imm : Option Nat) (ws : List Word), m ≠ .ckraw → m ≠ .ckres →
    (assembleLine (.command m imm) = .ok ws ↔
      ∃ n, imm = some n ∧ n < 256 ∧ ws = [encode (instrOf m (BitVec.ofNat 8 n))])) ∧
  (∀ (n : Nat) (ws : List Word), assembleLine (.word n) = .ok ws ↔ n < 65536 ∧ ws = [BitVec.ofNat 16 n]) ∧
  (∀ (c pid : Nat) (d : List Nat) (ws adds : List Word), adds = d.map (fun n => 0x2000#16 ||| BitVec.ofNat 16 n) →
    (assembleLine (.pseudo (.calcClassic d)) = .ok ws ↔
      (d.length ≤ 255 ∧ ∀ n ∈ d, n < 256) ∧ ws = 0x1000#16 :: (adds ++ [0x4000#16])) ∧
    (assembleLine (.pseudo (.calcEnhanced pid d)) = .ok ws ↔
      pid < 256 ∧ (d.length ≤ 255 ∧ ∀ n ∈ d, n < 256) ∧
        ws = (0x1000#16 ||| BitVec.ofNat 16 pid) :: (adds ++ [0x4000#16])) ∧
    (assembleLine (.pseudo (.verifyClassic c d)) = .ok ws ↔
      c < 256 ∧ (d.length ≤ 255 ∧ ∀ n ∈ d, n < 256) ∧
        ws = 0x1000#16 :: (adds ++ [0x5000#16 ||| BitVec.ofNat 16 c])) ∧
    (assembleLine (.pseudo (.verifyEnhanced c pid d)) = .ok ws ↔
      c < 256 ∧ pid < 256 ∧ (d.length ≤ 255 ∧ ∀ n ∈ d, n < 256) ∧
        ws = (0x1000#16 ||| BitVec.ofNat 16 pid) :: (adds ++ [0x5000#16 ||| BitVec.ofNat 16 c])) ∧
    (assembleLine (.pseudo (.encodePid c)) = .ok ws ↔ c < 256 ∧ ws = [0x6000#16 ||| BitVec.ofNat 16 c]) ∧
    (assembleLine (.pseudo (.decodePid c)) = .ok ws ↔ c < 256 ∧ ws = [0x7000#16 ||| BitVec.ofNat 16 c])) ∧
  (∀ l : AsmLine, (∃ ws, assembleLine l = .ok ws) ↔ l.wellFormed = true)

/-- Assembling the disassembly of any word, legal or not, gives the word back (30_encoding.md R72, R73; the detail of the
spelling is the MODEL's choice, log entry 9). -/
def Obligations.DisassemblyAssemblesBack : Prop :=
  ∀ w : Word, assembleText (disassemble w) = .ok [w]
end

