-- ==== Sys2Proof/Laws/Assembler.lean ====
section
/-! SUPPORT. A printed hexadecimal digit is read back as itself, and it neither ends nor splits a token; and the check of a
byte list in numbers. -/

namespace Sys2Proof.Machine

/-- The reader's value of a printed digit. -/
theorem digitValue_hexDigit (n : BitVec 4) : digitValue 16 (hexDigit n) = some n.toNat := by
  revert n
  decide

/-- A printed digit is no comment mark, no space and no punctuation. -/
theorem hexDigit_is_text (n : BitVec 4) :
    hexDigit n ≠ ';' ∧ hexDigit n ≠ ' ' ∧ hexDigit n ≠ '\t' ∧ punctuation (hexDigit n) = none := by
  revert n
  decide

/-- A printed digit joins the token being read. -/
theorem tokens_hexDigit (n : BitVec 4) (cs acc : List Char) :
    tokens (hexDigit n :: cs) acc = tokens cs (hexDigit n :: acc) := by
  obtain ⟨notComment, notSpace, notTab, notMark⟩ := hexDigit_is_text n
  simp [tokens, notComment, notSpace, notTab, notMark]

/-- Reading one printed digit more. -/
theorem digitsValue_hexDigit (n : BitVec 4) (cs : List Char) (acc : Nat) :
    digitsValue 16 (hexDigit n :: cs) acc = digitsValue 16 cs (acc * 16 + n.toNat) := by
  simp [digitsValue, digitValue_hexDigit]

/-- A list passes when it has at most 255 entries, each below 256 (30_encoding.md R71, R75). -/
theorem byteListOk_iff (d : List Nat) : byteListOk d = true ↔ d.length ≤ 255 ∧ ∀ n ∈ d, n < 256 := by
  rw [byteListOk, Bool.and_eq_true]
  exact and_congr decide_eq_true_iff (by simp [immediateOk])

end Sys2Proof.Machine
end

