-- ==== Sys2Proof/Laws/Decode.lean ====
section
/-! SUPPORT. The three fields of a word as numbers, and that a word is nothing but its fields. -/

namespace Sys2Proof

theorem opField_toNat (w : Word) : (opField w).toNat = w.toNat / 4096 := by
  have hw := w.isLt
  simp only [opField, BitVec.extractLsb'_toNat, Nat.shiftRight_eq_div_pow]
  omega

theorem rsvField_toNat (w : Word) : (rsvField w).toNat = w.toNat / 256 % 16 := by
  simp only [rsvField, BitVec.extractLsb'_toNat, Nat.shiftRight_eq_div_pow]

theorem dataField_toNat (w : Word) : (dataField w).toNat = w.toNat % 256 := by
  simp [dataField, BitVec.extractLsb'_toNat]

/-- Two words with the same fields are one word. -/
theorem word_eq_of_fields {w v : Word} (hop : opField w = opField v) (hrsv : rsvField w = rsvField v)
    (hdata : dataField w = dataField v) : w = v := by
  have h1 := congrArg BitVec.toNat hop
  have h2 := congrArg BitVec.toNat hrsv
  have h3 := congrArg BitVec.toNat hdata
  rw [opField_toNat, opField_toNat] at h1
  rw [rsvField_toNat, rsvField_toNat] at h2
  rw [dataField_toNat, dataField_toNat] at h3
  apply BitVec.eq_of_toNat_eq
  omega

end Sys2Proof
end

