-- ==== Sys2Proof/Laws/State.lean ====
section
/-! SUPPORT. One lemma per field and update of State, so that no later proof unfolds a record update, and the same for
the operations built of them. -/

namespace Sys2Proof.Machine

@[simp] theorem State.setAcc_acc (s : State) (v : Byte) : (s.setAcc v).acc = v := rfl
@[simp] theorem State.setAcc_res (s : State) (v : Byte) : (s.setAcc v).res = s.res := rfl
@[simp] theorem State.setAcc_ok (s : State) (v : Byte) : (s.setAcc v).ok = s.ok := rfl
@[simp] theorem State.setAcc_err (s : State) (v : Byte) : (s.setAcc v).err = s.err := rfl
@[simp] theorem State.setAcc_port (s : State) (v : Byte) : (s.setAcc v).port = s.port := rfl

@[simp] theorem State.setRes_acc (s : State) (v : Byte) : (s.setRes v).acc = s.acc := rfl
@[simp] theorem State.setRes_res (s : State) (v : Byte) : (s.setRes v).res = v := rfl
@[simp] theorem State.setRes_ok (s : State) (v : Byte) : (s.setRes v).ok = s.ok := rfl
@[simp] theorem State.setRes_err (s : State) (v : Byte) : (s.setRes v).err = s.err := rfl
@[simp] theorem State.setRes_port (s : State) (v : Byte) : (s.setRes v).port = s.port := rfl

@[simp] theorem State.setOk_acc (s : State) (b : Bool) : (s.setOk b).acc = s.acc := rfl
@[simp] theorem State.setOk_res (s : State) (b : Bool) : (s.setOk b).res = s.res := rfl
@[simp] theorem State.setOk_ok (s : State) (b : Bool) : (s.setOk b).ok = b := rfl
@[simp] theorem State.setOk_err (s : State) (b : Bool) : (s.setOk b).err = s.err := rfl
@[simp] theorem State.setOk_port (s : State) (b : Bool) : (s.setOk b).port = s.port := rfl

@[simp] theorem State.setErr_acc (s : State) (b : Bool) : (s.setErr b).acc = s.acc := rfl
@[simp] theorem State.setErr_res (s : State) (b : Bool) : (s.setErr b).res = s.res := rfl
@[simp] theorem State.setErr_ok (s : State) (b : Bool) : (s.setErr b).ok = s.ok := rfl
@[simp] theorem State.setErr_err (s : State) (b : Bool) : (s.setErr b).err = b := rfl
@[simp] theorem State.setErr_port (s : State) (b : Bool) : (s.setErr b).port = s.port := rfl

@[simp] theorem State.setPort_acc (s : State) (es : List Edge) : (s.setPort es).acc = s.acc := rfl
@[simp] theorem State.setPort_res (s : State) (es : List Edge) : (s.setPort es).res = s.res := rfl
@[simp] theorem State.setPort_ok (s : State) (es : List Edge) : (s.setPort es).ok = s.ok := rfl
@[simp] theorem State.setPort_err (s : State) (es : List Edge) : (s.setPort es).err = s.err := rfl
@[simp] theorem State.setPort_port (s : State) (es : List Edge) : (s.setPort es).port = es := rfl

@[simp] theorem raiseIllegal_acc (r : IllegalReason) (s : State) : (raiseIllegal r s).acc = s.acc := rfl
@[simp] theorem raiseIllegal_res (r : IllegalReason) (s : State) : (raiseIllegal r s).res = s.res := rfl
@[simp] theorem raiseIllegal_ok (r : IllegalReason) (s : State) : (raiseIllegal r s).ok = s.ok := rfl
@[simp] theorem raiseIllegal_err (r : IllegalReason) (s : State) : (raiseIllegal r s).err = true := rfl
@[simp] theorem raiseIllegal_port (r : IllegalReason) (s : State) : (raiseIllegal r s).port = s.port := rfl

@[simp] theorem takeReset_acc (s : State) : (takeReset s).acc = 0x00#8 := rfl
@[simp] theorem takeReset_res (s : State) : (takeReset s).res = 0x00#8 := rfl
@[simp] theorem takeReset_ok (s : State) : (takeReset s).ok = false := rfl
@[simp] theorem takeReset_err (s : State) : (takeReset s).err = false := rfl
@[simp] theorem takeReset_port (s : State) : (takeReset s).port = s.port := rfl

/-- Two states with the same elements and the same edges to come are one state. -/
theorem State.eq_of_fields {s t : State} (hacc : s.acc = t.acc) (hres : s.res = t.res) (hok : s.ok = t.ok)
    (herr : s.err = t.err) (hport : s.port = t.port) : s = t := by
  cases s; cases t; simp_all

/-- A later write of `ACC` hides an earlier one. -/
@[simp] theorem State.setAcc_setAcc (s : State) (v v' : Byte) : (s.setAcc v).setAcc v' = s.setAcc v' := rfl

/-- Replacing the edges to come twice is replacing them once. -/
@[simp] theorem State.setPort_setPort (s : State) (es es' : List Edge) :
    (s.setPort es).setPort es' = s.setPort es' := rfl

/-- Replacing the edges to come by themselves changes nothing. -/
@[simp] theorem State.setPort_self (s : State) : s.setPort s.port = s := rfl

/-- A reset forgets everything but the edges to come. -/
theorem takeReset_eq (s : State) : takeReset s = State.reset.setPort s.port := rfl

end Sys2Proof.Machine
end

