-- ==== Sys2Proof/Laws/Ops.lean ====
section
/-! SUPPORT. One lemma per shared operation that says in natural numbers, or bit by bit, everything it computes. -/

namespace Sys2Proof.Machine

/-- The end-around-carry sum as a number: the plain sum, less 255 when it overflows. -/
theorem eacAdd_toNat (a b : Byte) :
    (eacAdd a b).toNat =
      if a.toNat + b.toNat < 256 then a.toNat + b.toNat else a.toNat + b.toNat - 255 := by
  have ha := a.isLt
  have hb := b.isLt
  simp only [eacAdd, BitVec.toNat_add, BitVec.toNat_setWidth, BitVec.extractLsb'_toNat,
    Nat.shiftRight_eq_div_pow]
  split <;> omega

/-- The verify sum as a number: modulo 256, no fold. -/
theorem verifySum_toNat (a c : Byte) : (verifySum a c).toNat = (a.toNat + c.toNat) % 256 := by
  simp [verifySum, BitVec.toNat_add]

/-- The one's complement as a number. -/
theorem onesComplement_toNat (a : Byte) : (onesComplement a).toNat = 255 - a.toNat := by
  simp [onesComplement, BitVec.toNat_not]

/-- The identifier of an operand, as a number: modulo 64. -/
theorem fidOf_toNat (d : Byte) : (fidOf d).toNat = d.toNat % 64 := by
  simp [fidOf, BitVec.extractLsb'_toNat]

/-- The parity bits of a byte, as a number. -/
theorem parityBits_toNat (p : Byte) : (parityBits p).toNat = p.toNat / 64 := by
  have hp := p.isLt
  simp only [parityBits, BitVec.extractLsb'_toNat, Nat.shiftRight_eq_div_pow]
  omega

@[simp] theorem accumulate_nil (seed : Byte) : accumulate seed [] = seed := rfl

@[simp] theorem accumulate_cons (seed b : Byte) (d : List Byte) :
    accumulate seed (b :: d) = accumulate (eacAdd seed b) d := rfl

/-- Accumulating two stretches of bytes, one after the other. -/
theorem accumulate_append (seed : Byte) (d d' : List Byte) :
    accumulate seed (d ++ d') = accumulate (accumulate seed d) d' := by
  simp [accumulate, List.foldl_append]

@[simp] theorem delayedState_nil (seed : Byte) : delayedState seed [] = { sum := seed, carry := 0#1 } := rfl

/-- The delayed-carry state after one more byte. -/
theorem delayedState_concat (seed b : Byte) (d : List Byte) :
    delayedState seed (d ++ [b]) = delayedAdd (delayedState seed d) b := by
  simp [delayedState, List.foldl_append]

/-- One byte of the delayed-carry reading adds the byte and the pending carry to nothing but the nine bits it keeps. -/
theorem delayedAdd_toNat (st : Delayed) (b : Byte) :
    (delayedAdd st b).sum.toNat + 256 * (delayedAdd st b).carry.toNat =
      st.sum.toNat + b.toNat + st.carry.toNat := by
  have hs := st.sum.isLt
  have hb := b.isLt
  have hc := st.carry.isLt
  simp only [delayedAdd, BitVec.toNat_add, BitVec.toNat_setWidth, BitVec.extractLsb'_toNat,
    Nat.shiftRight_eq_div_pow]
  omega

end Sys2Proof.Machine
end

