-- ==== Sys2Proof/Laws/PerInstr.lean ====
section
/-! SUPPORT. Facts about every command as it is written, one lemma per constructor. -/

namespace Sys2Proof.Laws.EncodeFields

/-- The three fields of a command's word are its opcode, zeros and its operand (30_encoding.md R61, R64). -/
def Statement (i : Instr) : Prop :=
  opField (encode i) = opcodeOf i ∧ rsvField (encode i) = 0x0#4 ∧ dataField (encode i) = operandOf i

/-- The fields of a word put together as `encode` puts them together. -/
theorem fields_of_append (op : BitVec 4) (data : Byte) :
    opField (op ++ 0b0000#4 ++ data) = op ∧ rsvField (op ++ 0b0000#4 ++ data) = 0x0#4 ∧
      dataField (op ++ 0b0000#4 ++ data) = data := by
  have ho := op.isLt
  have hd := data.isLt
  refine ⟨?_, ?_, ?_⟩ <;>
  · apply BitVec.eq_of_toNat_eq
    simp only [opField, rsvField, dataField, BitVec.extractLsb'_toNat, BitVec.toNat_append, BitVec.toNat_ofNat,
      Nat.shiftRight_eq_div_pow, Nat.shiftLeft_eq]
    rw [← Nat.shiftLeft_eq, ← Nat.shiftLeft_add_eq_or_of_lt (by omega), Nat.shiftLeft_eq]
    simp only [Nat.zero_mod, Nat.or_zero]
    omega

theorem ckinit (seed : Byte) : Statement (.ckinit seed) := fields_of_append _ _

theorem ckadd (data : Byte) : Statement (.ckadd data) := fields_of_append _ _

theorem ckraw : Statement .ckraw := fields_of_append _ _

theorem ckres : Statement .ckres := fields_of_append _ _

theorem ckver (candidate : Byte) : Statement (.ckver candidate) := fields_of_append _ _

theorem pidenc (frameId : Byte) : Statement (.pidenc frameId) := fields_of_append _ _

theorem piddec (pid : Byte) : Statement (.piddec pid) := fields_of_append _ _

end Sys2Proof.Laws.EncodeFields
end

