-- ==== Sys2Proof/Laws/Step.lean ====
section
/-! SUPPORT. What each meaning, an edge and a step can do, said once. -/

namespace Sys2Proof.Machine

/-! ### The meanings -/

@[simp] theorem exec_ckinit (seed : Byte) (s : State) : exec (.ckinit seed) s = .next (s.setAcc seed) := rfl

@[simp] theorem exec_ckadd (data : Byte) (s : State) :
    exec (.ckadd data) s = .next (s.setAcc (eacAdd s.acc data)) := rfl

@[simp] theorem exec_ckraw (s : State) : exec .ckraw s = .next (s.setRes s.acc) := rfl

@[simp] theorem exec_ckres (s : State) : exec .ckres s = .next (s.setRes (onesComplement s.acc)) := rfl

@[simp] theorem exec_ckver (candidate : Byte) (s : State) :
    exec (.ckver candidate) s =
      .next ((s.setRes (verifySum s.acc candidate)).setOk (verifyMatch (verifySum s.acc candidate))) := rfl

@[simp] theorem exec_pidenc (frameId : Byte) (s : State) :
    exec (.pidenc frameId) s = .next (s.setRes (memReadPidtab (fidOf frameId))) := rfl

@[simp] theorem exec_piddec (pid : Byte) (s : State) :
    exec (.piddec pid) s =
      .next ((s.setRes (zextFid (fidOf pid))).setOk (parityValid (memReadPidtab (fidOf pid)) pid)) := rfl

/-! ### An edge -/

theorem takeEdge_of_rst {e : Edge} (s : State) (h : e.rst = true) : takeEdge e s = .next (takeReset s) := by
  simp [takeEdge, h]

theorem takeEdge_of_valid {e : Edge} (s : State) (hr : e.rst = false) (hv : e.cmdValid = true) :
    takeEdge e s = acceptWord e.cmd s := by
  simp [takeEdge, hr, hv]

theorem takeEdge_of_idle {e : Edge} (s : State) (hr : e.rst = false) (hv : e.cmdValid = false) :
    takeEdge e s = .next s := by
  simp [takeEdge, hr, hv]

@[simp] theorem takeEdge_command (w : Word) (s : State) : takeEdge (Edge.command w) s = acceptWord w s := rfl

@[simp] theorem takeEdge_idle (s : State) : takeEdge Edge.idle s = .next s := rfl

theorem acceptWord_command {w : Word} {i : Instr} (s : State) (h : decode w = .command i) :
    acceptWord w s = exec i s := by
  simp [acceptWord, h]

theorem acceptWord_illegal {w : Word} {r : IllegalReason} (s : State) (h : decode w = .illegal r) :
    acceptWord w s = .next (raiseIllegal r s) := by
  simp [acceptWord, h]

/-- Everything an edge can do: a reset, a command's meaning, raising `IllegalCommand`, or nothing. -/
theorem takeEdge_cases {e : Edge} {s t : State} (h : takeEdge e s = .next t) :
    (e.rst = true ∧ t = takeReset s) ∨
    (e.rst = false ∧ e.cmdValid = true ∧ ∃ i, decode e.cmd = .command i ∧ exec i s = .next t) ∨
    (e.rst = false ∧ e.cmdValid = true ∧ ∃ r, decode e.cmd = .illegal r ∧ t = raiseIllegal r s) ∨
    (e.rst = false ∧ e.cmdValid = false ∧ t = s) := by
  cases hr : e.rst with
  | true =>
    rw [takeEdge_of_rst s hr] at h
    cases h
    exact .inl ⟨rfl, rfl⟩
  | false =>
    cases hv : e.cmdValid with
    | false =>
      rw [takeEdge_of_idle s hr hv] at h
      cases h
      exact .inr (.inr (.inr ⟨rfl, rfl, rfl⟩))
    | true =>
      rw [takeEdge_of_valid s hr hv] at h
      cases hd : decode e.cmd with
      | command i =>
        rw [acceptWord_command s hd] at h
        exact .inr (.inl ⟨rfl, rfl, i, rfl, h⟩)
      | illegal r =>
        rw [acceptWord_illegal s hd] at h
        cases h
        exact .inr (.inr (.inl ⟨rfl, rfl, r, rfl, rfl⟩))

/-! ### A step -/

theorem fetchEdge_of_nil {s : State} (h : s.port = []) : fetchEdge s = (Edge.idle, s) := by
  simp [fetchEdge, h]

theorem fetchEdge_of_cons {s : State} {e : Edge} {rest : List Edge} (h : s.port = e :: rest) :
    fetchEdge s = (e, s.setPort rest) := by
  simp [fetchEdge, h]

/-- The edge just placed is the next one, and taking it off gives back the state it was placed on. -/
theorem fetchEdge_pushEdge (e : Edge) (s : State) : fetchEdge (pushEdge e s) = (e, s) := rfl

/-- Everything a step can do: wait for the host, or take the edge in front. -/
theorem step_cases {s t : State} (h : step s = .next t) :
    (s.port = [] ∧ t = s) ∨ (∃ e rest, s.port = e :: rest ∧ takeEdge e (s.setPort rest) = .next t) := by
  cases hp : s.port with
  | nil =>
    rw [step, fetchEdge_of_nil hp] at h
    cases h
    exact .inl ⟨rfl, rfl⟩
  | cons e rest =>
    rw [step, fetchEdge_of_cons hp] at h
    exact .inr ⟨e, rest, rfl, h⟩

end Sys2Proof.Machine
end

