-- ==== Sys2Proof/Laws/Run.lean ====
section
/-! SUPPORT. Small lemmas about runs. -/

namespace Sys2Proof.Machine

@[simp] theorem andThen_next (s : State) (k : State → Host.Outcome State Fault Refusal) :
    andThen (.next s) k = k s := rfl

@[simp] theorem runEdges_nil (s : State) : runEdges [] s = .next s := rfl

@[simp] theorem runEdges_cons (e : Edge) (es : List Edge) (s : State) :
    runEdges (e :: es) s = andThen (takeEdge e s) (runEdges es) := rfl

@[simp] theorem runWords_nil (s : State) : runWords [] s = .next s := rfl

@[simp] theorem runWords_cons (w : Word) (ws : List Word) (s : State) :
    runWords (w :: ws) s = andThen (acceptWord w s) (runWords ws) := rfl

@[simp] theorem runInstrs_nil (s : State) : runInstrs [] s = .next s := rfl

@[simp] theorem runInstrs_cons (i : Instr) (is : List Instr) (s : State) :
    runInstrs (i :: is) s = andThen (acceptWord (encode i) s) (runInstrs is) := rfl

/-- One step of the host's run, and then the rest. -/
theorem core_run_succ (k : Nat) (s : State) :
    Host.Core.run Sys2Proof.core (k + 1) s = andThen (step s) (Host.Core.run Sys2Proof.core k) := by
  have unfolded := Host.Core.run.eq_2 Sys2Proof.core s k
  cases h : step s with
  | next t =>
    rw [show Sys2Proof.core.step s = .next t from h] at unfolded
    exact unfolded
  | fault r => exact nomatch r
  | refused r =>
    rw [show Sys2Proof.core.step s = .refused r from h] at unfolded
    exact unfolded

@[simp] theorem loadEdges_port (es : List Edge) (s : State) : (loadEdges es s).port = es ++ s.port := rfl

end Sys2Proof.Machine
end

