-- ==== Sys2Proof/Tests/Slice0.lean ====
section
/-! SUPPORT. Tests of the model, their expected results from spec/ (each names its source), the smoke test of
WellFormed, and a witness for the hypotheses of each statement that has some. -/

namespace Sys2Proof.Tests

open Sys2Proof Sys2Proof.Machine

/-- A small state with `ERR = 0` and nothing to come, written `(ACC, RES, OK)` as 95_test_vectors.md writes states. -/
def st (acc res : Byte) (ok : Bool) : State := { acc := acc, res := res, ok := ok, err := false, port := [] }

/-! ### WellFormed: each check refuses an ill-formed term -/

theorem test_immediate_256_refused : AsmLine.wellFormed (.command .ckadd (some 256)) = false := by decide
theorem test_immediate_255_taken : AsmLine.wellFormed (.command .ckadd (some 255)) = true := by decide
theorem test_immediate_on_ckraw_refused : AsmLine.wellFormed (.command .ckraw (some 0)) = false := by decide
theorem test_missing_immediate_refused : AsmLine.wellFormed (.command .pidenc none) = false := by decide
theorem test_raw_word_65536_refused : AsmLine.wellFormed (.word 65536) = false := by decide
theorem test_list_256_refused : AsmLine.wellFormed (.pseudo (.calcClassic (List.replicate 256 0))) = false := by
  decide +kernel
theorem test_list_byte_256_refused : AsmLine.wellFormed (.pseudo (.calcEnhanced 1 [256])) = false := by decide
theorem test_pseudo_pid_256_refused : AsmLine.wellFormed (.pseudo (.verifyEnhanced 1 256 [])) = false := by decide
theorem test_empty_list_taken : AsmLine.wellFormed (.pseudo (.calcClassic [])) = true := by decide

/-! ### Decoding: the patterns of 30_encoding.md R63, bit by bit, and the illegal words of 95_test_vectors.md 2.7 -/

theorem test_decode_ckinit : decode 0b0001000010111111#16 = .command (.ckinit 0xBF#8) := by decide
theorem test_decode_ckadd : decode 0b0010000011111111#16 = .command (.ckadd 0xFF#8) := by decide
theorem test_decode_ckraw : decode 0b0011000000000000#16 = .command .ckraw := by decide
theorem test_decode_ckres : decode 0b0100000000000000#16 = .command .ckres := by decide
theorem test_decode_ckver : decode 0b0101000011100110#16 = .command (.ckver 0xE6#8) := by decide
theorem test_decode_pidenc : decode 0b0110000001000000#16 = .command (.pidenc 0x40#8) := by decide
theorem test_decode_piddec : decode 0b0111000010000001#16 = .command (.piddec 0x81#8) := by decide
theorem test_decode_zero_illegal : decode 0x0000#16 = .illegal .badOpcode := by decide
theorem test_decode_opcode_before_rsv : decode 0x9100#16 = .illegal .badOpcode := by decide
theorem test_decode_rsv_before_data : decode 0x3101#16 = .illegal .reservedBitsSet := by decide
theorem test_decode_rsv_of_piddec : decode 0x7800#16 = .illegal .reservedBitsSet := by decide
theorem test_decode_data_must_be_zero : decode 0x40FF#16 = .illegal .dataMustBeZero := by decide

/-! ### The commands, one step each: the examples and corner tables of 40_checksum.md and 41_protected_id.md -/

/-- R103's example. -/
theorem test_ckinit : (match exec (.ckinit 0xBF#8) (st 0x19 0xE6 true) with
    | .next t => decide (t = st 0xBF 0xE6 true) | _ => false) = true := by decide

/-- R104's example: `0x9F + 0x93 = 0x132` folds to `0x33`. -/
theorem test_ckadd_folds : (match exec (.ckadd 0x93#8) (st 0x9F 0x00 true) with
    | .next t => decide (t = st 0x33 0x00 true) | _ => false) = true := by decide

/-- R104's corner table: `0xFF + 0xFF` gives `0xFF`. -/
theorem test_ckadd_all_ones : (match exec (.ckadd 0xFF#8) (st 0xFF 0x00 false) with
    | .next t => decide (t.acc = 0xFF#8) | _ => false) = true := by decide

/-- R105's example. -/
theorem test_ckraw : (match exec .ckraw (st 0x4A 0x00 true) with
    | .next t => decide (t = st 0x4A 0x4A true) | _ => false) = true := by decide

/-- R106's example. -/
theorem test_ckres : (match exec .ckres (st 0x19 0x00 false) with
    | .next t => decide (t = st 0x19 0xE6 false) | _ => false) = true := by decide

/-- R107's example. -/
theorem test_ckver_match : (match exec (.ckver 0xE6#8) (st 0x19 0x00 false) with
    | .next t => decide (t = st 0x19 0xFF true) | _ => false) = true := by decide

/-- R107's corner: `ACC = c = 0xFF` gives `0xFE` and no match (90_conflicts.md C3). -/
theorem test_ckver_no_fold : (match exec (.ckver 0xFF#8) (st 0xFF 0x00 true) with
    | .next t => decide (t = st 0xFF 0xFE false) | _ => false) = true := by decide

/-- R153's corner: `PIDENC #0xFF` gives `0xBF`. -/
theorem test_pidenc_masks : (match exec (.pidenc 0xFF#8) (st 0x19 0x00 true) with
    | .next t => decide (t = st 0x19 0xBF true) | _ => false) = true := by decide

/-- R153's example: `PIDENC #0x10` gives `0x50`. -/
theorem test_pidenc : (match exec (.pidenc 0x10#8) (st 0x19 0x00 true) with
    | .next t => decide (t.res = 0x50#8) | _ => false) = true := by decide

/-- R155's example: `PIDDEC #0xBF`. -/
theorem test_piddec_valid : (match exec (.piddec 0xBF#8) (st 0x19 0x00 false) with
    | .next t => decide (t = st 0x19 0x3F true) | _ => false) = true := by decide

/-- R155's corner: `PIDDEC #0xFF` gives the identifier all the same. -/
theorem test_piddec_bad_parity : (match exec (.piddec 0xFF#8) (st 0x19 0x00 true) with
    | .next t => decide (t = st 0x19 0x3F false) | _ => false) = true := by decide

/-! ### Edges and steps: 95_test_vectors.md 2.7 and 2.8 -/

/-- An illegal word sets `ERR` alone. -/
theorem test_illegal_word : (match takeEdge ⟨false, true, 0x3101#16⟩ (st 0xFF 0xFE true) with
    | .next t => decide (t = { st 0xFF 0xFE true with err := true }) | _ => false) = true := by decide

/-- Reset wins over a command. -/
theorem test_reset_wins : (match takeEdge ⟨true, true, 0x10BF#16⟩ { st 0x19 0xE6 true with err := true } with
    | .next t => decide (t = State.reset) | _ => false) = true := by decide

/-- An illegal word is ignored while `cmd_valid = 0`. -/
theorem test_idle_ignores_word : (match takeEdge ⟨false, false, 0x0000#16⟩ (st 0x19 0xE6 true) with
    | .next t => decide (t = st 0x19 0xE6 true) | _ => false) = true := by decide

/-- A command in the first cycle after reset is accepted (R202). -/
theorem test_first_step_after_reset : (match step (State.reset.withFetchWord 16 0x1055) with
    | .next t => decide (t = st 0x55 0x00 false) | _ => false) = true := by decide

theorem test_table_word : decodeTableWord 16 0x60C0 = some (.pidenc 0xC0#8) := by decide
theorem test_table_word_illegal : decodeTableWord 16 0x7FFF = none := by decide

/-- `STATUS` with both flags set is `0b00000011` (R25). -/
theorem test_status : statusView { st 0x00 0x00 true with err := true } = 0x03#8 := by decide

/-! ### The table, the accumulation and the assembler -/

/-- The source's golden entries (41_protected_id.md R152). -/
theorem test_golden_entries :
    memReadPidtab 0x00#6 = 0x80#8 ∧ memReadPidtab 0x10#6 = 0x50#8 ∧ memReadPidtab 0x3F#6 = 0xBF#8 := by decide

/-- 95_test_vectors.md W1. -/
theorem test_classic_golden : classicChecksum [0x4A#8, 0x55#8, 0x93#8, 0xE5#8] = 0xE6#8 := by decide

/-- 95_test_vectors.md W2. -/
theorem test_enhanced_golden : enhancedChecksum 0xBF#8 [0x4A#8, 0x55#8, 0x93#8, 0xE5#8] = 0x27#8 := by decide

/-- R73's spelling: `CKADD #0x4A`. -/
theorem test_disassemble_ckadd :
    disassemble 0x204A#16 = ['C', 'K', 'A', 'D', 'D', ' ', '#', '0', 'x', '4', 'A'] := by decide

/-- R73's spelling of an illegal word: `.word 0x7FFF`. -/
theorem test_disassemble_illegal :
    disassemble 0x7FFF#16 = ['.', 'w', 'o', 'r', 'd', ' ', '0', 'x', '7', 'F', 'F', 'F'] := by decide

/-- R70, R71: a mnemonic in lower case, a decimal immediate, a comment. -/
theorem test_assemble_case_and_comment :
    assembleText ['c', 'k', 'a', 'd', 'd', ' ', '#', '7', '4', ' ', ';', 'x'] = .ok [0x204A#16] := by decide

/-- Log entry 9: a pseudo-instruction's name in lower case, and a hexadecimal number of one digit. -/
theorem test_assemble_pseudo_lower_case :
    assembleText ['e', 'n', 'c', 'o', 'd', 'e', '_', 'p', 'i', 'd', ' ', '#', '0', 'x', 'F'] = .ok [0x600F#16] := by decide

/-- R74: the empty list is legal. -/
theorem test_expand_empty : expandWords (.calcClassic []) = [0x1000#16, 0x4000#16] := by decide

/-- 93_implementation_defined.md U1. -/
theorem test_length_beyond_buffer : callerBytes [0x01#8] 2 = .error .lengthBeyondBuffer := by decide

/-! ### Witnesses: the hypotheses of each statement can be met, its clauses at a boundary value -/

theorem witness_DecodeAndEncodeAgree :
    (Instr.piddec 0xFF#8).wellFormed = true ∧ decode 0x1000#16 = .command (.ckinit 0x00#8) ∧
    decode 0x70FF#16 = .command (.piddec 0xFF#8) := by decide

theorem witness_OpcodeMapIsTheDecoder : ∃ r ∈ opcodeTable, ∃ r' ∈ opcodeTable,
    0x3000#16 &&& r.mask = r.matchBits ∧ 0x3000#16 &&& r'.mask = r'.matchBits := by decide

theorem witness_IllegalWordsAreExactlyThese :
    decode 0x8000#16 = .illegal .badOpcode ∧ decode 0x1100#16 = .illegal .reservedBitsSet ∧
    decode 0x3001#16 = .illegal .dataMustBeZero := by decide

theorem witness_DecodingChecksInOrder : decode 0xFFFF#16 = .illegal .badOpcode := by decide

theorem witness_CommandSpellingsGiveTheseWords : (0 : Nat) < 256 ∧ (255 : Nat) < 256 := by decide

theorem witness_CkrawCopiesTheAccumulator : (0x01#8 : Byte) ≠ 0x00#8 ∧ (0xFF#8 : Byte) ≠ 0x00#8 := by decide

theorem witness_CkresGivesTheComplement : (0x01#8 : Byte) ≠ 0x00#8 ∧ (0xFF#8 : Byte) ≠ 0x00#8 := by decide

theorem witness_AccumulatorCommandsFrame : ∃ t t',
    exec (.ckinit 0xFF#8) (st 0x00 0x01 true) = .next t ∧ exec (.ckadd 0x01#8) (st 0xFF 0x01 true) = .next t' :=
  ⟨_, _, rfl, rfl⟩

theorem witness_ResultCommandsFrame : ∃ t t' t'',
    exec .ckraw (st 0x00 0x01 true) = .next t ∧ exec .ckres (st 0xFF 0x01 true) = .next t' ∧
    exec (.pidenc 0xC0#8) (st 0xFF 0x01 true) = .next t'' :=
  ⟨_, _, _, rfl, rfl, rfl⟩

theorem witness_CheckCommandsFrame : ∃ t t',
    exec (.ckver 0xFF#8) (st 0x00 0x01 true) = .next t ∧ exec (.piddec 0xFF#8) (st 0xFF 0x01 true) = .next t' :=
  ⟨_, _, rfl, rfl⟩

theorem witness_ResetRestartsTheRun :
    [Edge.mk true true 0x10BF#16] ≠ [] ∧ (∀ e ∈ [Edge.mk true true 0x10BF#16], e.rst = true) := by decide

theorem witness_IllegalWordSetsErrAlone : decode 0x0000#16 = .illegal .badOpcode := by decide

theorem witness_IllegalCommandCauseCode :
    ({ st 0x19 0xE6 true with err := true } : State).err = true ∧ decode 0xFFFF#16 = .illegal .badOpcode ∧
    decode 0x1100#16 = .illegal .reservedBitsSet ∧ decode 0x3001#16 = .illegal .dataMustBeZero := by decide

theorem witness_OnlyInitAndAddWriteAcc : ∃ t t',
    takeEdge ⟨false, true, 0x1001#16⟩ (st 0x00 0x00 false) = .next t ∧ t.acc ≠ (st 0x00 0x00 false).acc ∧
    takeEdge ⟨true, false, 0x0000#16⟩ (st 0x01 0x00 false) = .next t' ∧ t'.acc ≠ (st 0x01 0x00 false).acc :=
  ⟨_, _, rfl, by decide, rfl, by decide⟩

theorem witness_OnlyResultCommandsWriteRes : ∃ t t',
    takeEdge ⟨false, true, 0x3000#16⟩ (st 0x01 0x00 false) = .next t ∧ t.res ≠ (st 0x01 0x00 false).res ∧
    takeEdge ⟨true, false, 0x0000#16⟩ (st 0x00 0x01 false) = .next t' ∧ t'.res ≠ (st 0x00 0x01 false).res :=
  ⟨_, _, rfl, by decide, rfl, by decide⟩

theorem witness_OnlyChecksWriteOk : ∃ t t',
    takeEdge ⟨false, true, 0x50FF#16⟩ (st 0x00 0x00 false) = .next t ∧ t.ok ≠ (st 0x00 0x00 false).ok ∧
    takeEdge ⟨false, true, 0x7000#16⟩ (st 0x00 0x00 true) = .next t' ∧ t'.ok ≠ (st 0x00 0x00 true).ok :=
  ⟨_, _, rfl, by decide, rfl, by decide⟩

theorem witness_OnlyIllegalWordsAndResetWriteErr : ∃ t t',
    takeEdge ⟨false, true, 0x0000#16⟩ (st 0x00 0x00 false) = .next t ∧ t.err = true ∧
    takeEdge ⟨true, false, 0x0000#16⟩ t = .next t' ∧ t'.err = false :=
  ⟨_, _, rfl, by decide, rfl, by decide⟩

theorem witness_ErrRecordsEveryIllegalWord :
    ∀ e ∈ [Edge.mk false true 0x0000#16, Edge.mk false false 0x0000#16], e.rst = false := by decide

theorem witness_AccumulatorIsIndependent :
    ({ st 0x5A 0xFF true with err := true } : State).acc = (st 0x5A 0x00 false).acc := by decide

theorem witness_StepTakesTheEdgeInFront :
    (st 0x00 0x00 false).port = [] ∧
    ({ st 0x00 0x00 false with port := [Edge.mk true false 0x0000#16] } : State).port =
      Edge.mk true false 0x0000#16 :: [] := by decide

theorem witness_StepRunsTheDecodedCommand :
    ({ st 0x00 0x00 false with port := [Edge.mk false true 0x60FF#16] } : State).port =
      Edge.mk false true 0x60FF#16 :: [] ∧ decode 0x60FF#16 = .command (.pidenc 0xFF#8) := by decide

theorem witness_EdgesTakeEffectInOrder :
    ({ st 0x00 0x00 false with port := [Edge.mk false true 0x20FF#16, Edge.mk false true 0x4000#16] } : State).port =
      Edge.mk false true 0x20FF#16 :: Edge.mk false true 0x4000#16 :: [] ∧
    decode 0x20FF#16 = .command (.ckadd 0xFF#8) ∧ decode 0x4000#16 = .command .ckres := by decide

theorem witness_AssemblerTakesTheWellFormed :
    Mnemonic.pidenc ≠ .ckraw ∧ Mnemonic.pidenc ≠ .ckres ∧
    [0x20FF#16] = [255].map (fun n => 0x2000#16 ||| BitVec.ofNat 16 n) ∧
    assembleLine (.command .pidenc (some 255)) = .ok [0x60FF#16] ∧
    assembleLine (.pseudo (.calcEnhanced 255 [255])) = .ok [0x10FF#16, 0x20FF#16, 0x4000#16] := by decide

theorem witness_PlacedWordRunsNext :
    0x70FF < 65536 ∧ decodeTableWord 16 0x70FF = some (.piddec 0xFF#8) := by decide

theorem witness_EveryStepKeepsClean : ∃ s t : State,
    s.clean = true ∧ s.port ≠ [] ∧ step s = .next t :=
  ⟨{ st 0x01 0x00 false with port := [⟨false, true, 0x20FF#16⟩, ⟨true, true, 0x0000#16⟩, ⟨false, false, 0x0000#16⟩] }, _,
    by decide, by decide, rfl⟩

theorem witness_CkaddOfZeroAndOfAllOnes :
    (st 0x01 0x00 false).acc ≠ 0x00#8 ∧ (st 0x00 0x00 false).acc = 0x00#8 := by decide

theorem witness_AccumulationClosedForm :
    (255 : Nat) = (0x00#8 : Byte).toNat + ([0xFF#8].map BitVec.toNat).sum ∧
    (0 : Nat) = (0x00#8 : Byte).toNat + (([] : List Byte).map BitVec.toNat).sum ∧
    (256 : Nat) = (0xFF#8 : Byte).toNat + ([0x01#8].map BitVec.toNat).sum ∧ 256 % 255 ≠ 0 := by decide

theorem witness_AccumulationIgnoresOrder : [0x01#8, 0xFF#8].Perm [0xFF#8, 0x01#8] := by decide

theorem witness_VerifyDetectsAllButTheSwap :
    (0x00#8 : Byte) ≠ 0xFF#8 ∧ (0x40#8 : Byte) ≠ enhancedChecksum 0x00#8 [0x01#8] := by decide

theorem witness_DecoderDetectsSingleBitErrors :
    0xBF#8 = memReadPidtab ((0xBF#8 : Byte).extractLsb' 0 6) ∧ (0 : Nat) < 8 ∧ (7 : Nat) < 8 := by decide

theorem witness_ViewsShowTheState : (2 : Nat) ≤ 2 ∧ (2 : Nat) ≤ 7 := by decide

end Sys2Proof.Tests
end

/-! Proofs about the scope (00_scope.md): the transcriber's length rule. -/

namespace Sys2Proof.Machine

/-- The one way `callerBytes` answers a list: both checks pass, and the list is the buffer cut at the length. -/
theorem callerBytes_eq_ok_iff {buffer d : List Byte} {n : Nat} :
    callerBytes buffer n = .ok d ↔ n ≤ Config.maxListLength ∧ n ≤ buffer.length ∧ buffer.take n = d := by
  unfold callerBytes
  split
  case isTrue hmax => simp [Nat.not_le.mpr hmax]
  case isFalse hmax =>
    split
    case isTrue hbuf => simp [Nat.not_le.mpr hbuf]
    case isFalse hbuf => simp [Nat.le_of_not_lt hmax, Nat.le_of_not_lt hbuf]

/-- Cutting a list at a length it has gives exactly its prefix of that length. -/
theorem take_eq_iff_length_eq_and_prefix {α : Type} {l d : List α} {n : Nat} :
    n ≤ l.length ∧ l.take n = d ↔ d.length = n ∧ d <+: l := by
  constructor
  · rintro ⟨hn, rfl⟩
    exact ⟨List.length_take_of_le hn, List.take_prefix n l⟩
  · rintro ⟨rfl, hd⟩
    exact ⟨hd.length_le, (List.prefix_iff_eq_take.mp hd).symm⟩

/-- Settles O56: the two checks of R75 pass and the list is the buffer cut at the caller's length (R13), which is to say
that it is the buffer's prefix of that length. -/
theorem callerLengthIsTheLength : Obligations.CallerLengthIsTheLength := by
  intro buffer n d
  calc callerBytes buffer n = .ok d
      ↔ n ≤ Config.maxListLength ∧ n ≤ buffer.length ∧ buffer.take n = d := callerBytes_eq_ok_iff
    _ ↔ n ≤ 255 ∧ d.length = n ∧ d <+: buffer := and_congr Iff.rfl take_eq_iff_length_eq_and_prefix

end Sys2Proof.Machine

/-! Proofs about the state (10_state.md): what each command writes, who can change an element, and the accumulator of a
run. -/

namespace Sys2Proof.Machine

/-! ### What a command writes -/

/-- The commands fall into three kinds by what they write (10_state.md R21 to R23). -/
theorem instr_kinds (i : Instr) : ∃ d,
    (i = .ckinit d ∨ i = .ckadd d) ∨ (i = .ckraw ∨ i = .ckres ∨ i = .pidenc d) ∨ (i = .ckver d ∨ i = .piddec d) := by
  cases i with
  | ckinit d => exact ⟨d, .inl (.inl rfl)⟩
  | ckadd d => exact ⟨d, .inl (.inr rfl)⟩
  | ckraw => exact ⟨0x00#8, .inr (.inl (.inl rfl))⟩
  | ckres => exact ⟨0x00#8, .inr (.inl (.inr (.inl rfl)))⟩
  | pidenc d => exact ⟨d, .inr (.inl (.inr (.inr rfl)))⟩
  | ckver d => exact ⟨d, .inr (.inr (.inl rfl))⟩
  | piddec d => exact ⟨d, .inr (.inr (.inr rfl))⟩

/-- `CKINIT` and `CKADD` answer the state with a new `ACC`. -/
theorem exec_eq_setAcc {i : Instr} {d : Byte} (s : State) (hi : i = .ckinit d ∨ i = .ckadd d) :
    ∃ v, exec i s = .next (s.setAcc v) := by
  obtain rfl | rfl := hi
  · exact ⟨_, exec_ckinit d s⟩
  · exact ⟨_, exec_ckadd d s⟩

/-- `CKRAW`, `CKRES` and `PIDENC` answer the state with a new `RES`. -/
theorem exec_eq_setRes {i : Instr} {d : Byte} (s : State) (hi : i = .ckraw ∨ i = .ckres ∨ i = .pidenc d) :
    ∃ v, exec i s = .next (s.setRes v) := by
  obtain rfl | rfl | rfl := hi
  · exact ⟨_, exec_ckraw s⟩
  · exact ⟨_, exec_ckres s⟩
  · exact ⟨_, exec_pidenc d s⟩

/-- `CKVER` and `PIDDEC` answer the state with a new `RES` and a new `OK`. -/
theorem exec_eq_setRes_setOk {i : Instr} {d : Byte} (s : State) (hi : i = .ckver d ∨ i = .piddec d) :
    ∃ v b, exec i s = .next ((s.setRes v).setOk b) := by
  obtain rfl | rfl := hi
  · exact ⟨_, _, exec_ckver d s⟩
  · exact ⟨_, _, exec_piddec d s⟩

/-- Settles O14: the two commands are one write of `ACC`. -/
theorem accumulatorCommandsFrame : Obligations.AccumulatorCommandsFrame := by
  intro i d s t hi hexec
  obtain ⟨v, hv⟩ := exec_eq_setAcc s hi
  cases hv.symm.trans hexec
  simp

/-- Settles O15: the three commands are one write of `RES`. -/
theorem resultCommandsFrame : Obligations.ResultCommandsFrame := by
  intro i d s t hi hexec
  obtain ⟨v, hv⟩ := exec_eq_setRes s hi
  cases hv.symm.trans hexec
  simp

/-- Settles O16: the two commands are one write of `RES` and one of `OK`. -/
theorem checkCommandsFrame : Obligations.CheckCommandsFrame := by
  intro i d s t hi hexec
  obtain ⟨v, b, hvb⟩ := exec_eq_setRes_setOk s hi
  cases hvb.symm.trans hexec
  simp

/-- Every command answers a next state, in every state (40_checksum.md R118). -/
theorem exec_answers (i : Instr) (s : State) : ∃ t, exec i s = .next t := by
  obtain ⟨d, hi | hi | hi⟩ := instr_kinds i
  · obtain ⟨v, hv⟩ := exec_eq_setAcc s hi
    exact ⟨_, hv⟩
  · obtain ⟨v, hv⟩ := exec_eq_setRes s hi
    exact ⟨_, hv⟩
  · obtain ⟨v, b, hvb⟩ := exec_eq_setRes_setOk s hi
    exact ⟨_, hvb⟩

/-- A command that changes `ACC` is a `CKINIT` or a `CKADD`. -/
theorem exec_acc_writer {i : Instr} {s t : State} (h : exec i s = .next t) (hne : t.acc ≠ s.acc) :
    ∃ d, i = .ckinit d ∨ i = .ckadd d := by
  obtain ⟨d, hi | hi | hi⟩ := instr_kinds i
  · exact ⟨d, hi⟩
  · exact absurd (resultCommandsFrame i d s t hi h).1 hne
  · exact absurd (checkCommandsFrame i d s t hi h).1 hne

/-- A command that changes `RES` is one of the five that produce a byte. -/
theorem exec_res_writer {i : Instr} {s t : State} (h : exec i s = .next t) (hne : t.res ≠ s.res) :
    ∃ d, (i = .ckraw ∨ i = .ckres ∨ i = .pidenc d) ∨ (i = .ckver d ∨ i = .piddec d) := by
  obtain ⟨d, hi | hi⟩ := instr_kinds i
  · exact absurd (accumulatorCommandsFrame i d s t hi h).1 hne
  · exact ⟨d, hi⟩

/-- A command that changes `OK` is a `CKVER` or a `PIDDEC`. -/
theorem exec_ok_writer {i : Instr} {s t : State} (h : exec i s = .next t) (hne : t.ok ≠ s.ok) :
    ∃ d, i = .ckver d ∨ i = .piddec d := by
  obtain ⟨d, hi | hi | hi⟩ := instr_kinds i
  · obtain ⟨-, hok, -⟩ := accumulatorCommandsFrame i d s t hi h
    exact absurd hok hne
  · obtain ⟨-, hok, -⟩ := resultCommandsFrame i d s t hi h
    exact absurd hok hne
  · exact ⟨d, hi⟩

/-- No command writes `ERR` (10_state.md R24). -/
theorem exec_err {i : Instr} {s t : State} (h : exec i s = .next t) : t.err = s.err := by
  obtain ⟨d, hi | hi | hi⟩ := instr_kinds i
  · obtain ⟨-, -, herr, -⟩ := accumulatorCommandsFrame i d s t hi h
    exact herr
  · obtain ⟨-, -, herr, -⟩ := resultCommandsFrame i d s t hi h
    exact herr
  · obtain ⟨-, herr, -⟩ := checkCommandsFrame i d s t hi h
    exact herr

/-! ### Who changes an element at an edge -/

/-- An element that raising `IllegalCommand` leaves alone changes only at a reset or by a command's meaning. -/
theorem takeEdge_writer {α : Type} (field : State → α) (hraise : ∀ r s, field (raiseIllegal r s) = field s)
    {e : Edge} {s t : State} (h : takeEdge e s = .next t) (hne : field t ≠ field s) :
    e.rst = true ∨ (e.cmdValid = true ∧ ∃ i, decode e.cmd = .command i ∧ exec i s = .next t) := by
  obtain ⟨hr, -⟩ | ⟨-, hv, hcommand⟩ | ⟨-, -, r, -, rfl⟩ | ⟨-, -, rfl⟩ := takeEdge_cases h
  · exact .inl hr
  · exact .inr ⟨hv, hcommand⟩
  · exact absurd (hraise r s) hne
  · exact absurd rfl hne

/-- Settles O24: the frames of the other commands leave `CKINIT` and `CKADD`. -/
theorem onlyInitAndAddWriteAcc : Obligations.OnlyInitAndAddWriteAcc := by
  intro e s t h hne
  obtain hr | ⟨hv, i, hd, hexec⟩ := takeEdge_writer State.acc raiseIllegal_acc h hne
  · exact .inl hr
  · exact .inr ⟨hv, by simpa [hd] using exec_acc_writer hexec hne⟩

/-- Settles O25: the frame of `CKINIT` and `CKADD` leaves the other five. -/
theorem onlyResultCommandsWriteRes : Obligations.OnlyResultCommandsWriteRes := by
  intro e s t h hne
  obtain hr | ⟨hv, i, hd, hexec⟩ := takeEdge_writer State.res raiseIllegal_res h hne
  · exact .inl hr
  · obtain ⟨d, (rfl | rfl | rfl) | (rfl | rfl)⟩ := exec_res_writer hexec hne
    · exact .inr ⟨hv, .inl hd⟩
    · exact .inr ⟨hv, .inr (.inl hd)⟩
    · exact .inr ⟨hv, .inr (.inr ⟨d, .inr (.inl hd)⟩)⟩
    · exact .inr ⟨hv, .inr (.inr ⟨d, .inl hd⟩)⟩
    · exact .inr ⟨hv, .inr (.inr ⟨d, .inr (.inr hd)⟩)⟩

/-- Settles O26: the frames of the other commands leave `CKVER` and `PIDDEC`. -/
theorem onlyChecksWriteOk : Obligations.OnlyChecksWriteOk := by
  intro e s t h hne
  obtain hr | ⟨hv, i, hd, hexec⟩ := takeEdge_writer State.ok raiseIllegal_ok h hne
  · exact .inl hr
  · exact .inr ⟨hv, by simpa [hd] using exec_ok_writer hexec hne⟩

/-- Settles O27: of the four things an edge can do, only raising sets `ERR` and only a reset clears it; a command and an
idle edge leave it as it is. -/
theorem onlyIllegalWordsAndResetWriteErr : Obligations.OnlyIllegalWordsAndResetWriteErr := by
  intro e s t h
  obtain ⟨hr, rfl⟩ | ⟨hr, hv, i, hd, hexec⟩ | ⟨hr, hv, r, hd, rfl⟩ | ⟨hr, hv, rfl⟩ := takeEdge_cases h
  case inl => simp [hr]
  case inr.inl =>
    simp +contextual [exec_err hexec, hr, hd]
  case inr.inr.inl => simp [hr, hv, hd]
  case inr.inr.inr => simp +contextual [hr, hv]

/-! ### The accumulator of a run -/

/-- Every edge answers a next state, in every state. -/
theorem takeEdge_answers (e : Edge) (s : State) : ∃ t, takeEdge e s = .next t := by
  cases hr : e.rst with
  | true => exact ⟨_, takeEdge_of_rst s hr⟩
  | false =>
    cases hv : e.cmdValid with
    | false => exact ⟨_, takeEdge_of_idle s hr hv⟩
    | true =>
      rw [takeEdge_of_valid s hr hv]
      cases hd : decode e.cmd with
      | illegal r => exact ⟨_, acceptWord_illegal s hd⟩
      | command i => exact acceptWord_command s hd ▸ exec_answers i s

/-- The commands that feed the accumulator are `CKINIT` and `CKADD`. -/
theorem feedsAcc_iff {v : Decoded} :
    feedsAcc v = true ↔ ∃ d, v = .command (.ckinit d) ∨ v = .command (.ckadd d) := by
  cases v with
  | illegal r => simp [feedsAcc]
  | command i => cases i <;> simp [feedsAcc]

/-- The edges that feed the accumulator, by name (10_state.md R21). -/
theorem edge_feedsAcc_iff {e : Edge} : e.feedsAcc = true ↔
    e.rst = true ∨ (e.cmdValid = true ∧
      ∃ d, decode e.cmd = .command (.ckinit d) ∨ decode e.cmd = .command (.ckadd d)) := by
  rw [Edge.feedsAcc, Bool.or_eq_true, Bool.and_eq_true, feedsAcc_iff]

/-- An edge that does not feed the accumulator leaves `ACC` as it is. -/
theorem takeEdge_acc_of_not_feedsAcc {e : Edge} {s t : State} (hf : e.feedsAcc = false)
    (h : takeEdge e s = .next t) : t.acc = s.acc := by
  by_contra hne
  have hfeeds : e.feedsAcc = true := edge_feedsAcc_iff.mpr (onlyInitAndAddWriteAcc e s t h hne)
  simp [hf] at hfeeds

/-- An edge that feeds the accumulator makes equal `ACC`s equal `ACC`s, whatever else the two states hold. -/
theorem takeEdge_acc_of_feedsAcc {e : Edge} {s s' : State} (hf : e.feedsAcc = true) (hacc : s'.acc = s.acc) :
    ∃ t t', takeEdge e s = .next t ∧ takeEdge e s' = .next t' ∧ t'.acc = t.acc := by
  cases hr : e.rst with
  | true => exact ⟨_, _, takeEdge_of_rst s hr, takeEdge_of_rst s' hr, rfl⟩
  | false =>
    obtain hrst | ⟨hv, d, hd | hd⟩ := edge_feedsAcc_iff.mp hf
    · simp [hr] at hrst
    · simp [takeEdge_of_valid _ hr hv, acceptWord_command _ hd]
    · simp [takeEdge_of_valid _ hr hv, acceptWord_command _ hd, hacc]

/-- Settles O31, by induction on the edges: a feeding edge is taken by both runs and keeps their `ACC`s equal, any other
edge is taken by the first run alone and leaves its `ACC` as it is. -/
theorem accumulatorIsIndependent : Obligations.AccumulatorIsIndependent := by
  intro es
  induction es with
  | nil => exact fun s s' hacc => ⟨s, s', rfl, rfl, hacc⟩
  | cons e es ih =>
    intro s s' hacc
    cases hf : e.feedsAcc with
    | true =>
      obtain ⟨t, t', ht, ht', hacc'⟩ := takeEdge_acc_of_feedsAcc hf hacc
      simpa [hf, ht, ht'] using ih t t' hacc'
    | false =>
      obtain ⟨t, ht⟩ := takeEdge_answers e s
      have hacc' : s'.acc = t.acc := hacc.trans (takeEdge_acc_of_not_feedsAcc hf ht).symm
      simpa [hf, ht] using ih t s' hacc'

/-! ### The reset values and the views -/

/-- The three fields of every command's word, from the lemma of each command. -/
theorem encode_fields (i : Instr) : Laws.EncodeFields.Statement i := by
  cases i with
  | ckinit d => exact Laws.EncodeFields.ckinit d
  | ckadd d => exact Laws.EncodeFields.ckadd d
  | ckraw => exact Laws.EncodeFields.ckraw
  | ckres => exact Laws.EncodeFields.ckres
  | ckver d => exact Laws.EncodeFields.ckver d
  | pidenc d => exact Laws.EncodeFields.pidenc d
  | piddec d => exact Laws.EncodeFields.piddec d

/-- Decoding the word of a command gives the command back (30_encoding.md R69, R72). -/
theorem decode_encode (i : Instr) : decode (encode i) = .command i := by
  obtain ⟨hop, hrsv, hdata⟩ := encode_fields i
  rw [decode, hop, hrsv, hdata]
  cases i <;> rfl

/-- Accepting the word of a command is its meaning. -/
@[simp] theorem acceptWord_encode (i : Instr) (s : State) : acceptWord (encode i) s = exec i s :=
  acceptWord_command s (decode_encode i)

/-- The commands of the data bytes accumulate them into `ACC` and write nothing else (40_checksum.md R102). What follows
them runs on that state. -/
theorem runInstrs_addAll_append (d : List Byte) (is : List Instr) (s : State) :
    runInstrs (addAll d ++ is) s = runInstrs is (s.setAcc (accumulate s.acc d)) := by
  induction d generalizing s with
  | nil => rfl
  | cons b d ih => simpa [addAll] using ih (s.setAcc (eacAdd s.acc b))

/-- Settles O19: the values are `State.reset`'s, and since `ACC` is zero there, accumulating from it is accumulating from
the classic seed. -/
theorem resetStateIsAllZero : Obligations.ResetStateIsAllZero := by
  refine ⟨rfl, rfl, rfl, rfl, rfl, rfl, rfl, fun d => ?_⟩
  have hrun := runInstrs_addAll_append d [.ckres] State.reset
  simp only [runInstrs_cons, acceptWord_encode, exec_ckres, andThen_next, runInstrs_nil] at hrun
  exact ⟨_, hrun, rfl⟩

/-- Every bit of the `STATUS` view (10_state.md R25). -/
theorem statusView_getLsbD (s : State) (k : Nat) :
    (statusView s).getLsbD k = if k = 0 then s.ok else if k = 1 then s.err else false := by
  refine BitVec.getLsbD_append.trans ?_
  rw [BitVec.getLsbD_append]
  match k with
  | 0 => simp
  | 1 => simp
  | k + 2 => simp

/-- Settles O55: the ports are the elements, and the bits of `STATUS` are read one by one. -/
theorem viewsShowTheState : Obligations.ViewsShowTheState := by
  intro s
  refine ⟨rfl, ?_, ?_, fun k hk => ?_⟩
  · exact statusView_getLsbD s 0
  · exact statusView_getLsbD s 1
  · rw [statusView_getLsbD, if_neg (by omega), if_neg (by omega)]

end Sys2Proof.Machine

/-! Proofs about ordering (20_memory.md): runs joined end to end, and steps over the commands still to come. -/

namespace Sys2Proof.Machine

/-! ### Runs joined end to end -/

/-- Nothing to follow leaves an outcome as it is. -/
@[simp] theorem andThen_next_right (o : Host.Outcome State Fault Refusal) : andThen o .next = o := by
  cases o <;> rfl

/-- It does not matter how three parts of a run are grouped. -/
theorem andThen_assoc (o : Host.Outcome State Fault Refusal) (k l : State → Host.Outcome State Fault Refusal) :
    andThen (andThen o k) l = andThen o (fun s => andThen (k s) l) := by
  cases o <;> rfl

/-- What follows an outcome matters only at the state that outcome answers. -/
theorem andThen_congr {o : Host.Outcome State Fault Refusal} {k l : State → Host.Outcome State Fault Refusal}
    (h : ∀ t, o = .next t → k t = l t) : andThen o k = andThen o l := by
  cases o with
  | next t => exact h t rfl
  | fault r => rfl
  | refused r => rfl

/-- The run of one command is its meaning. -/
theorem runInstrs_singleton (i : Instr) : runInstrs [i] = exec i := by
  funext s
  calc runInstrs [i] s
      = andThen (acceptWord (encode i) s) .next := rfl
    _ = exec i s := by rw [andThen_next_right, acceptWord_encode]

/-- Two stretches of commands run one after the other, the second on the state the first left. -/
theorem runInstrs_append (is js : List Instr) (s : State) :
    runInstrs (is ++ js) s = andThen (runInstrs is s) (runInstrs js) := by
  induction is generalizing s with
  | nil => rfl
  | cons i is ih =>
    rw [List.cons_append, runInstrs_cons, runInstrs_cons, andThen_assoc]
    exact andThen_congr fun t _ => ih t

/-! ### Steps over commands -/

/-- No command touches the edges still to come (log entry 1). -/
theorem exec_port {i : Instr} {s t : State} (h : exec i s = .next t) : t.port = s.port := by
  obtain ⟨d, hi | hi | hi⟩ := instr_kinds i
  · obtain ⟨-, -, -, hport⟩ := accumulatorCommandsFrame i d s t hi h
    exact hport
  · obtain ⟨-, -, -, hport⟩ := resultCommandsFrame i d s t hi h
    exact hport
  · obtain ⟨-, -, hport⟩ := checkCommandsFrame i d s t hi h
    exact hport

/-- A step with a command in front is that command's meaning, with its edge taken off. -/
theorem step_of_command {s : State} {w : Word} {rest : List Edge} {i : Instr}
    (hport : s.port = Edge.command w :: rest) (hd : decode w = .command i) : step s = exec i (s.setPort rest) := by
  rw [step, fetchEdge_of_cons hport, takeEdge_command, acceptWord_command _ hd]

/-- The host's run of one step is that step. -/
theorem core_run_one (s : State) : Host.Core.run Sys2Proof.core 1 s = step s :=
  (core_run_succ 0 s).trans (andThen_next_right (step s))

/-- Settles O28: runs of commands are joined end to end, and so are two steps, where the first command leaves the second
one's edge in front. -/
theorem edgesTakeEffectInOrder : Obligations.EdgesTakeEffectInOrder := by
  refine ⟨fun i j s => ?pair, fun is j s => ?append, fun s w v rest i j hport hw hv => ?steps⟩
  case pair =>
    rw [← runInstrs_singleton i, ← runInstrs_singleton j]
    exact runInstrs_append [i] [j] s
  case append => rw [runInstrs_append, runInstrs_singleton]
  case steps =>
    have second : ∀ t, exec i (s.setPort (Edge.command v :: rest)) = .next t →
        Host.Core.run Sys2Proof.core 1 t = exec j (t.setPort rest) :=
      fun t ht => (core_run_one t).trans (step_of_command (exec_port ht) hv)
    refine (core_run_succ 1 s).trans ?_
    rw [step_of_command hport hw]
    exact andThen_congr second

end Sys2Proof.Machine

/-! Proofs about the encoding (30_encoding.md): decoding, the opcode map, the illegal words, and the assembler. -/

namespace Sys2Proof.Machine

/-! ### What the decoder answers -/

/-- The opcodes no command has (30_encoding.md R69), `HAS_PDEC` being 1. -/
theorem opcodeUnassigned_iff (op : BitVec 4) : opcodeUnassigned op = true ↔ op = 0x0#4 ∨ 0x8#4 ≤ op := by
  simp [opcodeUnassigned, Config.hasPdec]

/-- The opcodes of the seven commands are all the others. -/
theorem assigned_opcode_cases {op : BitVec 4} (h : opcodeUnassigned op = false) :
    op = 0x1#4 ∨ op = 0x2#4 ∨ op = 0x3#4 ∨ op = 0x4#4 ∨ op = 0x5#4 ∨ op = 0x6#4 ∨ op = 0x7#4 := by
  revert op
  decide

theorem decode_of_unassigned {w : Word} (hop : opcodeUnassigned (opField w) = true) :
    decode w = .illegal .badOpcode := by
  simp [decode, hop]

theorem decode_of_reserved {w : Word} (hop : opcodeUnassigned (opField w) = false) (hrsv : rsvField w ≠ 0x0#4) :
    decode w = .illegal .reservedBitsSet := by
  simp [decode, hop, hrsv]

theorem decode_of_assigned {w : Word} (hop : opcodeUnassigned (opField w) = false) (hrsv : rsvField w = 0x0#4) :
    decode w = decodeOp (opField w) (dataField w) := by
  simp [decode, hop, hrsv]

/-- A command without operand is decoded from `DATA = 0x00` alone (30_encoding.md R65). -/
theorem noOperand_eq_command_iff {i j : Instr} {data : Byte} :
    noOperand i data = .command j ↔ i = j ∧ data = 0x00#8 := by
  by_cases hdata : data = 0x00#8 <;> simp [noOperand, hdata]

theorem noOperand_illegal_iff (i : Instr) (data : Byte) :
    (∃ r, noOperand i data = .illegal r) ↔ data ≠ 0x00#8 := by
  by_cases hdata : data = 0x00#8 <;> simp [noOperand, hdata]

/-- The command of an assigned opcode has that opcode and that operand. -/
theorem opcodeOf_operandOf_of_decodeOp {op : BitVec 4} {data : Byte} {i : Instr}
    (hop : opcodeUnassigned op = false) (h : decodeOp op data = .command i) :
    opcodeOf i = op ∧ operandOf i = data := by
  obtain rfl | rfl | rfl | rfl | rfl | rfl | rfl := assigned_opcode_cases hop
  case inr.inr.inl | inr.inr.inr.inl =>
    obtain ⟨rfl, hdata⟩ := noOperand_eq_command_iff.mp h
    exact ⟨rfl, hdata.symm⟩
  all_goals
    cases h
    exact ⟨rfl, rfl⟩

/-- A word decodes to a command only if it is the command's word. -/
theorem encode_of_decode {w : Word} {i : Instr} (h : decode w = .command i) : encode i = w := by
  cases hop : opcodeUnassigned (opField w) with
  | true => simp [decode_of_unassigned hop] at h
  | false =>
    by_cases hrsv : rsvField w = 0x0#4
    · rw [decode_of_assigned hop hrsv] at h
      obtain ⟨hopcode, hoperand⟩ := opcodeOf_operandOf_of_decodeOp hop h
      obtain ⟨heop, hersv, hedata⟩ := encode_fields i
      exact word_eq_of_fields (heop.trans hopcode) (hersv.trans hrsv.symm) (hedata.trans hoperand)
    · simp [decode_of_reserved hop hrsv] at h

/-- Decoding is the inverse of encoding, on the words that are one (30_encoding.md R61, R69). -/
theorem decode_eq_command_iff {w : Word} {i : Instr} : decode w = .command i ↔ encode i = w :=
  ⟨encode_of_decode, fun h => h ▸ decode_encode i⟩

/-- Settles O1: no operand is excluded, so this is that decoding inverts encoding, both ways. -/
theorem decodeAndEncodeAgree : Obligations.DecodeAndEncodeAgree :=
  ⟨fun i _ => decode_encode i, fun _ _ => encode_of_decode⟩

/-! ### The assembler on a line -/

/-- The words of a line, whatever its numbers (30_encoding.md R70, R72, R74). -/
def lineWords : AsmLine → List Word
  | .command m imm => [encode (instrOf m (byteOf (imm.getD 0)))]
  | .word w => [BitVec.ofNat 16 w]
  | .pseudo p => expandWords (pseudoBytes p)

theorem assembleCommand_eq_ok_iff {m : Mnemonic} {imm : Option Nat} {ws : List Word} :
    assembleCommand m imm = .ok ws ↔ commandOk m imm = true ∧ ws = lineWords (.command m imm) := by
  cases imm with
  | none => cases hm : m.takesImmediate <;> simp [assembleCommand, commandOk, lineWords, byteOf, hm, eq_comm]
  | some n =>
    cases hm : m.takesImmediate <;> cases hn : immediateOk n <;>
      simp [assembleCommand, commandOk, lineWords, hm, hn, eq_comm]

/-- A well-formed pseudo-instruction's list is not too long (30_encoding.md R75). -/
theorem pseudoList_length_le {p : Pseudo Nat} (h : p.wellFormed = true) :
    (pseudoList p).length ≤ Config.maxListLength := by
  cases p <;> simp_all [Pseudo.wellFormed, pseudoList, byteListOk]

theorem assemblePseudo_eq_ok_iff {p : Pseudo Nat} {ws : List Word} :
    assemblePseudo p = .ok ws ↔ p.wellFormed = true ∧ ws = lineWords (.pseudo p) := by
  cases hp : p.wellFormed with
  | true => simp [assemblePseudo, lineWords, hp, Nat.not_lt.mpr (pseudoList_length_le hp), eq_comm]
  | false =>
    simp only [assemblePseudo, hp]
    split <;> simp

/-- The assembler takes exactly the well-formed lines, and gives their words (30_encoding.md R70 to R75). -/
theorem assembleLine_eq_ok_iff {l : AsmLine} {ws : List Word} :
    assembleLine l = .ok ws ↔ l.wellFormed = true ∧ ws = lineWords l := by
  cases l with
  | command m imm => exact assembleCommand_eq_ok_iff
  | word w => cases hw : rawWordOk w <;> simp [assembleLine, AsmLine.wellFormed, lineWords, hw, eq_comm]
  | pseudo p => exact assemblePseudo_eq_ok_iff

/-! ### Reading back what is printed -/

/-- A character that neither ends nor splits a token (30_encoding.md R70, R71). -/
abbrev IsTextChar (c : Char) : Prop := c ≠ ';' ∧ c ≠ ' ' ∧ c ≠ '\t' ∧ punctuation c = none

/-- Such characters join the token being read. -/
theorem tokens_text_append {cs : List Char} (h : ∀ c ∈ cs, IsTextChar c) (rest acc : List Char) :
    tokens (cs ++ rest) acc = tokens rest (cs.reverse ++ acc) := by
  induction cs generalizing acc with
  | nil => rfl
  | cons c cs ih =>
    obtain ⟨⟨notComment, notSpace, notTab, notMark⟩, hcs⟩ := List.forall_mem_cons.mp h
    simpa [tokens, notComment, notSpace, notTab, notMark] using ih hcs (c :: acc)

/-- A line of such characters alone is one token. -/
theorem tokens_text {cs : List Char} (h : ∀ c ∈ cs, IsTextChar c) (hne : cs ≠ []) :
    tokens cs [] = [.text cs] := by
  simpa [tokens, flushText, hne] using tokens_text_append h [] []

/-- A space after such characters ends the token. -/
theorem tokens_text_space {cs : List Char} (h : ∀ c ∈ cs, IsTextChar c) (hne : cs ≠ []) (rest : List Char) :
    tokens (cs ++ ' ' :: rest) [] = .text cs :: tokens rest [] := by
  rw [tokens_text_append h]
  simp [tokens, flushText, hne]

/-- A `#` is a token of its own. -/
theorem tokens_hash (rest : List Char) : tokens ('#' :: rest) [] = .hash :: tokens rest [] := rfl

theorem hexByte_isText (b : Byte) : ∀ c ∈ hexByte b, IsTextChar c := by
  simp only [hexByte, List.forall_mem_cons]
  exact ⟨hexDigit_is_text _, hexDigit_is_text _, List.forall_mem_nil _⟩

theorem hexWord_isText (w : Word) : ∀ c ∈ hexWord w, IsTextChar c := fun c hc =>
  (List.mem_append.mp hc).elim (hexByte_isText _ c) (hexByte_isText _ c)

/-- `0x` in front of such characters leaves all of them so. -/
theorem hexPrefix_isText {ds : List Char} (h : ∀ c ∈ ds, IsTextChar c) : ∀ c ∈ '0' :: 'x' :: ds, IsTextChar c :=
  List.forall_mem_cons.mpr ⟨by decide, List.forall_mem_cons.mpr ⟨by decide, h⟩⟩

theorem spelling_isText (m : Mnemonic) : ∀ c ∈ spelling m, IsTextChar c := by
  cases m <;> simp [spelling, IsTextChar, punctuation]

theorem spelling_ne_nil (m : Mnemonic) : spelling m ≠ [] := by
  cases m <;> decide

/-- The value of a byte's two printed digits. -/
theorem digitsValue_hexByte (b : Byte) (cs : List Char) (acc : Nat) :
    digitsValue 16 (hexByte b ++ cs) acc = digitsValue 16 cs (acc * 256 + b.toNat) := by
  have value : (acc * 16 + b.toNat / 16 % 16) * 16 + b.toNat % 16 = acc * 256 + b.toNat := by
    have := b.isLt
    omega
  rw [← value]
  simp [hexByte, digitsValue_hexDigit, BitVec.extractLsb'_toNat, Nat.shiftRight_eq_div_pow]

/-- A printed byte is read back (30_encoding.md R71, R73). -/
theorem readNumber_hexByte (b : Byte) : readNumber ('0' :: 'x' :: hexByte b) = some b.toNat := by
  simpa [readNumber, digitsValue, hexByte] using digitsValue_hexByte b [] 0

/-- A printed word is read back (30_encoding.md R70, R73). -/
theorem readRawWord_hexWord (w : Word) : readRawWord ('0' :: 'x' :: hexWord w) = some w.toNat := by
  calc readRawWord ('0' :: 'x' :: hexWord w)
      = digitsValue 16 (hexByte (w.extractLsb' 8 8) ++ (hexByte (w.extractLsb' 0 8) ++ [])) 0 := rfl
    _ = some ((0 * 256 + (w.extractLsb' 8 8).toNat) * 256 + (w.extractLsb' 0 8).toNat) := by
        rw [digitsValue_hexByte, digitsValue_hexByte, digitsValue]
    _ = some w.toNat := by
        have := w.isLt
        simp only [BitVec.extractLsb'_toNat, Nat.shiftRight_eq_div_pow]
        congr 1
        omega

/-- A line that begins with a mnemonic is a command line (30_encoding.md R70). -/
theorem readLine_spelling (m : Mnemonic) (rest : List Token) :
    readLine (.text (spelling m) :: rest) = orMalformed (readCommand m rest) := by
  cases m <;> rfl

/-- The line a command is printed as: its immediate, if it takes one, is its operand (30_encoding.md R72). -/
def commandLine (i : Instr) : AsmLine :=
  .command i.mnemonic (if i.mnemonic.takesImmediate then some (operandOf i).toNat else none)

/-- A printed command is read back. -/
theorem readLine_printCommand (i : Instr) :
    readLine (tokens (printCommand i.mnemonic i.mnemonic.takesImmediate (operandOf i)) []) =
      .ok (some (commandLine i)) := by
  cases hm : i.mnemonic.takesImmediate with
  | false =>
    have oneToken : tokens (printCommand i.mnemonic false (operandOf i)) [] = [.text (spelling i.mnemonic)] :=
      tokens_text (spelling_isText _) (spelling_ne_nil _)
    rw [oneToken, readLine_spelling]
    simp [readCommand, orMalformed, commandLine, hm]
  | true =>
    have threeTokens : tokens (printCommand i.mnemonic true (operandOf i)) [] =
        [.text (spelling i.mnemonic), .hash, .text ('0' :: 'x' :: hexByte (operandOf i))] := by
      calc tokens (printCommand i.mnemonic true (operandOf i)) []
          = tokens (spelling i.mnemonic ++ ' ' :: '#' :: '0' :: 'x' :: hexByte (operandOf i)) [] := by
            simp [printCommand]
        _ = _ := by
            rw [tokens_text_space (spelling_isText _) (spelling_ne_nil _), tokens_hash,
              tokens_text (hexPrefix_isText (hexByte_isText _)) (List.cons_ne_nil _ _)]
    rw [threeTokens, readLine_spelling]
    simp [readCommand, readNumber_hexByte, orMalformed, commandLine, hm]

/-- The line of a command is one the assembler takes. -/
theorem commandLine_wellFormed (i : Instr) : (commandLine i).wellFormed = true := by
  have hlt := (operandOf i).isLt
  cases hm : i.mnemonic.takesImmediate <;> simp [commandLine, AsmLine.wellFormed, commandOk, immediateOk, hm, hlt]

/-- The line of a command gives the command's word. -/
theorem lineWords_commandLine (i : Instr) : lineWords (commandLine i) = [encode i] := by
  cases i <;>
    simp [commandLine, lineWords, byteOf, Instr.mnemonic, Mnemonic.takesImmediate, instrOf, operandOf]

/-- A printed raw word is read back (30_encoding.md R73). -/
theorem readLine_rawWord (w : Word) :
    readLine (tokens (['.', 'w', 'o', 'r', 'd', ' ', '0', 'x'] ++ hexWord w) []) = .ok (some (.word w.toNat)) := by
  have wordIsText : ∀ c ∈ ['.', 'w', 'o', 'r', 'd'], IsTextChar c := by
    simp [IsTextChar, punctuation]
  have twoTokens : tokens (['.', 'w', 'o', 'r', 'd'] ++ ' ' :: '0' :: 'x' :: hexWord w) [] =
      [.text ['.', 'w', 'o', 'r', 'd'], .text ('0' :: 'x' :: hexWord w)] := by
    rw [tokens_text_space wordIsText (List.cons_ne_nil _ _),
      tokens_text (hexPrefix_isText (hexWord_isText w)) (List.cons_ne_nil _ _)]
  have directive : ∀ rest, readLine (.text ['.', 'w', 'o', 'r', 'd'] :: rest) = orMalformed (readWord rest) :=
    fun _ => rfl
  calc readLine (tokens (['.', 'w', 'o', 'r', 'd', ' ', '0', 'x'] ++ hexWord w) [])
      = orMalformed (readWord [.text ('0' :: 'x' :: hexWord w)]) := by
        rw [← directive, ← twoTokens]
        rfl
    _ = .ok (some (.word w.toNat)) := by simp [readWord, readRawWord_hexWord, orMalformed]

/-- A line that is read as a well-formed one assembles to that one's words. -/
theorem assembleText_of_readLine {line : List Char} {l : AsmLine} (h : readLine (tokens line []) = .ok (some l))
    (hl : l.wellFormed = true) : assembleText line = .ok (lineWords l) := by
  have taken : assembleLine l = .ok (lineWords l) := assembleLine_eq_ok_iff.mpr ⟨hl, rfl⟩
  simp [assembleText, h, taken]

/-- Settles O58: a legal word is printed as its command, which is read back as a line that gives the command's word; an
illegal one is printed as a raw word, which is read back as itself. -/
theorem disassemblyAssemblesBack : Obligations.DisassemblyAssemblesBack := by
  intro w
  cases hd : decode w with
  | command i =>
    calc assembleText (disassemble w)
        = assembleText (printCommand i.mnemonic i.mnemonic.takesImmediate (operandOf i)) := by
          rw [disassemble, hd]
      _ = .ok (lineWords (commandLine i)) :=
          assembleText_of_readLine (readLine_printCommand i) (commandLine_wellFormed i)
      _ = .ok [w] := by rw [lineWords_commandLine, encode_of_decode hd]
  | illegal r =>
    calc assembleText (disassemble w)
        = assembleText (['.', 'w', 'o', 'r', 'd', ' ', '0', 'x'] ++ hexWord w) := by rw [disassemble, hd]
      _ = .ok (lineWords (.word w.toNat)) :=
          assembleText_of_readLine (readLine_rawWord w) (decide_eq_true w.isLt)
      _ = .ok [w] := by rw [lineWords, BitVec.ofNat_toNat, BitVec.setWidth_eq]

/-! ### The opcode map -/

theorem covers_iff (r : OpcodeRow) (w : Word) : r.covers w = true ↔ w &&& r.mask = r.matchBits :=
  beq_iff_eq

/-- Masking a word and comparing the rest is doing so field by field. -/
theorem and_eq_iff_fields (w m v : Word) : w &&& m = v ↔
    opField w &&& opField m = opField v ∧ rsvField w &&& rsvField m = rsvField v ∧
      dataField w &&& dataField m = dataField v := by
  simp only [opField, rsvField, dataField, ← BitVec.extractLsb'_and]
  exact ⟨fun h => h ▸ ⟨rfl, rfl, rfl⟩, fun ⟨hop, hrsv, hdata⟩ => word_eq_of_fields hop hrsv hdata⟩

/-- A word decodes to a command exactly when its fields are the command's (30_encoding.md R61, R64). -/
theorem decode_eq_command_iff_fields {w : Word} {i : Instr} : decode w = .command i ↔
    opField w = opcodeOf i ∧ rsvField w = 0x0#4 ∧ dataField w = operandOf i := by
  obtain ⟨hop, hrsv, hdata⟩ := encode_fields i
  rw [decode_eq_command_iff]
  constructor
  · rintro rfl
    exact ⟨hop, hrsv, hdata⟩
  · rintro ⟨hwop, hwrsv, hwdata⟩
    exact word_eq_of_fields (hop.trans hwop.symm) (hrsv.trans hwrsv.symm) (hdata.trans hwdata.symm)

/-- The bits of a row: opcode and `RSV` are compared, and `DATA` too where the command has no operand
(30_encoding.md R63 to R65). -/
theorem opcodeTable_fields : ∀ r ∈ opcodeTable,
    opField r.mask = 0xF#4 ∧ rsvField r.mask = 0xF#4 ∧
    dataField r.mask = (if r.mnemonic.takesImmediate then 0x00#8 else 0xFF#8) ∧
    r.matchBits = encode (instrOf r.mnemonic 0x00#8) := by
  decide

/-- The opcode of a command depends on its mnemonic alone. -/
theorem opcodeOf_instrOf (m : Mnemonic) (data data' : Byte) :
    opcodeOf (instrOf m data) = opcodeOf (instrOf m data') := by
  cases m <;> rfl

/-- A command that takes an immediate has it as operand, any other has the operand `0x00` (30_encoding.md R62, R65). -/
theorem operandOf_instrOf (m : Mnemonic) (data : Byte) :
    operandOf (instrOf m data) = if m.takesImmediate then data else 0x00#8 := by
  cases m <;> rfl

/-- A command is its mnemonic and its operand. -/
theorem instrOf_mnemonic_operandOf (i : Instr) : instrOf i.mnemonic (operandOf i) = i := by
  cases i <;> rfl

theorem mnemonic_instrOf (m : Mnemonic) (data : Byte) : (instrOf m data).mnemonic = m := by
  cases m <;> rfl

/-- A word matches a row exactly when it decodes to the row's command with `DATA` as its operand (30_encoding.md R63). -/
theorem and_mask_eq_matchBits_iff {r : OpcodeRow} (hr : r ∈ opcodeTable) (w : Word) :
    w &&& r.mask = r.matchBits ↔ decode w = .command (instrOf r.mnemonic (dataField w)) := by
  obtain ⟨hop, hrsv, hdata, hmatch⟩ := opcodeTable_fields r hr
  obtain ⟨heop, hersv, hedata⟩ := encode_fields (instrOf r.mnemonic 0x00#8)
  rw [and_eq_iff_fields, decode_eq_command_iff_fields, hmatch, hop, hrsv, hdata, heop, hersv, hedata,
    opcodeOf_instrOf r.mnemonic 0x00#8 (dataField w), operandOf_instrOf, operandOf_instrOf]
  have allOnes : ∀ x : BitVec 4, x &&& 0xF#4 = x := by decide
  have allOnes8 (x : Byte) : x &&& 0xFF#8 = x := BitVec.and_allOnes
  cases r.mnemonic.takesImmediate <;> simp [allOnes, allOnes8]

/-- Every command has a row. -/
theorem exists_row (m : Mnemonic) : ∃ r ∈ opcodeTable, r.mnemonic = m := by
  cases m <;> decide

/-- Two rows with one mnemonic are one row. -/
theorem row_eq_of_mnemonic_eq :
    ∀ r ∈ opcodeTable, ∀ r' ∈ opcodeTable, r.mnemonic = r'.mnemonic → r = r' := by
  decide

/-- A word that decodes to a command matches a row of the opcode map. -/
theorem exists_row_of_decode {w : Word} {i : Instr} (h : decode w = .command i) :
    ∃ r ∈ opcodeTable, w &&& r.mask = r.matchBits := by
  obtain ⟨r, hr, hmnemonic⟩ := exists_row i.mnemonic
  obtain ⟨-, -, hdata⟩ := decode_eq_command_iff_fields.mp h
  refine ⟨r, hr, (and_mask_eq_matchBits_iff hr w).mpr ?_⟩
  rw [h, hmnemonic, hdata, instrOf_mnemonic_operandOf]

/-- Settles O2: the row that is found gives the decoded command, and where none is found the word is no command; two rows
that match give the one decoded command, so they have one mnemonic. -/
theorem opcodeMapIsTheDecoder : Obligations.OpcodeMapIsTheDecoder := by
  intro w
  constructor
  · cases hfind : opcodeTable.find? (fun r => r.covers w) with
    | some r =>
      have hw : w &&& r.mask = r.matchBits := by
        simpa [covers_iff] using List.find?_some hfind
      rw [(and_mask_eq_matchBits_iff (List.mem_of_find?_eq_some hfind) w).mp hw]
      rfl
    | none =>
      cases hd : decode w with
      | illegal reason => rfl
      | command i =>
        obtain ⟨r, hr, hw⟩ := exists_row_of_decode hd
        exact absurd ((covers_iff r w).mpr hw) (List.find?_eq_none.mp hfind r hr)
  · intro r hr r' hr' hw hw'
    have hcommand := (and_mask_eq_matchBits_iff hr w).mp hw
    have hcommand' := (and_mask_eq_matchBits_iff hr' w).mp hw'
    have hinstr : instrOf r.mnemonic (dataField w) = instrOf r'.mnemonic (dataField w) :=
      Decoded.command.inj (hcommand.symm.trans hcommand')
    apply row_eq_of_mnemonic_eq r hr r' hr'
    rw [← mnemonic_instrOf r.mnemonic (dataField w), hinstr, mnemonic_instrOf]

/-! ### The illegal words -/

/-- An assigned opcode is rejected only for an operand where there is none to have (30_encoding.md R65). -/
theorem decodeOp_illegal_iff {op : BitVec 4} (hop : opcodeUnassigned op = false) (data : Byte) :
    (∃ r, decodeOp op data = .illegal r) ↔ (op = 0x3#4 ∨ op = 0x4#4) ∧ data ≠ 0x00#8 := by
  obtain rfl | rfl | rfl | rfl | rfl | rfl | rfl := assigned_opcode_cases hop
  case inr.inr.inl => simpa [decodeOp] using noOperand_illegal_iff .ckraw data
  case inr.inr.inr.inl => simpa [decodeOp] using noOperand_illegal_iff .ckres data
  all_goals simp [decodeOp]

/-- The illegal words by their fields (30_encoding.md R66). -/
theorem decode_illegal_iff (w : Word) : (∃ r, decode w = .illegal r) ↔
    opField w = 0x0#4 ∨ 0x8#4 ≤ opField w ∨ rsvField w ≠ 0x0#4 ∨
      ((opField w = 0x3#4 ∨ opField w = 0x4#4) ∧ dataField w ≠ 0x00#8) := by
  rw [← or_assoc, ← opcodeUnassigned_iff]
  cases hop : opcodeUnassigned (opField w) with
  | true => simp [decode_of_unassigned hop]
  | false =>
    by_cases hrsv : rsvField w = 0x0#4
    · simp [decode_of_assigned hop hrsv, decodeOp_illegal_iff hop, hrsv]
    · simp [decode_of_reserved hop hrsv, hrsv]

theorem legalWord_iff (w : Word) : legalWord w = true ↔ ∃ i, encode i = w := by
  cases hd : decode w <;> simp [legalWord, Decoded.instr?, ← decode_eq_command_iff, hd]

/-- Every byte, once. -/
def allBytes : List Byte := (List.finRange 256).map BitVec.ofFin

theorem mem_allBytes (b : Byte) : b ∈ allBytes :=
  List.mem_map.mpr ⟨b.toFin, List.mem_finRange _, rfl⟩

theorem allBytes_nodup : allBytes.Nodup :=
  (List.nodup_finRange 256).map fun _ _ h => BitVec.ofFin.inj h

theorem allBytes_length : allBytes.length = 256 :=
  (List.length_map _).trans List.length_finRange

/-- The five commands with this operand. -/
def commandsWith (b : Byte) : List Instr := [.ckinit b, .ckadd b, .ckver b, .pidenc b, .piddec b]

theorem operandOf_of_mem_commandsWith {b : Byte} {i : Instr} (h : i ∈ commandsWith b) : operandOf i = b := by
  simp only [commandsWith, List.mem_cons, List.not_mem_nil, or_false] at h
  obtain rfl | rfl | rfl | rfl | rfl := h <;> rfl

/-- Every command: the two without operand, and the five others with every byte (30_encoding.md R62). -/
def allCommands : List Instr := [.ckraw, .ckres] ++ allBytes.flatMap commandsWith

theorem mem_allCommands (i : Instr) : i ∈ allCommands := by
  cases i <;> simp [allCommands, commandsWith, mem_allBytes]

theorem allCommands_length : allCommands.length = 1282 := by
  have fiveEach : (allBytes.flatMap commandsWith).length = 256 * 5 := by
    calc (allBytes.flatMap commandsWith).length
        = (allBytes.map fun _ => 5).sum := List.length_flatMap
      _ = 256 * 5 := by rw [List.map_const', List.sum_const_nat, allBytes_length]
  rw [allCommands, List.length_append, fiveEach]
  rfl

theorem allCommands_nodup : allCommands.Nodup := by
  refine List.nodup_append'.mpr ⟨by decide, List.nodup_flatMap.mpr ⟨fun b _ => ?_, ?_⟩, ?_⟩
  · simp [commandsWith]
  · refine allBytes_nodup.imp fun hne i hi hi' => hne ?_
    exact (operandOf_of_mem_commandsWith hi).symm.trans (operandOf_of_mem_commandsWith hi')
  · simp [List.disjoint_left, commandsWith]

theorem encode_injective : Function.Injective encode := fun i j h =>
  Decoded.command.inj ((decode_encode i).symm.trans (h ▸ decode_encode j))

/-- The numbers of the legal words are those of the commands' words. -/
theorem legalWords_perm :
    ((List.range 65536).filter fun n => legalWord (BitVec.ofNat 16 n)).Perm
      (allCommands.map fun i => (encode i).toNat) := by
  have commandsNodup : (allCommands.map fun i => (encode i).toNat).Nodup :=
    allCommands_nodup.map fun _ _ h => encode_injective (BitVec.eq_of_toNat_eq h)
  refine (List.perm_ext_iff_of_nodup (List.nodup_range.filter _) commandsNodup).mpr fun n => ?_
  rw [List.mem_filter, List.mem_range, legalWord_iff, List.mem_map]
  constructor
  · rintro ⟨hn, i, hi⟩
    exact ⟨i, mem_allCommands i, by rw [hi, BitVec.toNat_ofNat, Nat.mod_eq_of_lt hn]⟩
  · rintro ⟨i, -, rfl⟩
    exact ⟨(encode i).isLt, i, by rw [BitVec.ofNat_toNat, BitVec.setWidth_eq]⟩

/-- There are as many legal words as commands (30_encoding.md R66). -/
theorem legalWords_length :
    ((List.range 65536).filter fun n => legalWord (BitVec.ofNat 16 n)).length = 1282 := by
  rw [legalWords_perm.length_eq, List.length_map, allCommands_length]

/-- What a filter drops is the rest of the list. -/
theorem length_filter_not {α : Type} (l : List α) (p : α → Bool) :
    (l.filter fun a => !p a).length = l.length - (l.filter p).length := by
  have total := List.length_eq_length_filter_add (l := l) p
  omega

/-- All other words are illegal (30_encoding.md R66). -/
theorem illegalWords_length :
    ((List.range 65536).filter fun n => !legalWord (BitVec.ofNat 16 n)).length = 64254 := by
  rw [length_filter_not, legalWords_length, List.length_range]

/-- Settles O3: the legal words are counted as the words of the commands, and every other word is illegal. -/
theorem illegalWordsAreExactlyThese : Obligations.IllegalWordsAreExactlyThese :=
  ⟨decode_illegal_iff, legalWords_length, illegalWords_length, fun _ _ s h => acceptWord_illegal s h⟩

/-! ### The decoder in numbers -/

theorem opField_eq_iff (w : Word) (op : BitVec 4) : opField w = op ↔ w.toNat / 4096 = op.toNat := by
  rw [← opField_toNat, BitVec.toNat_inj]

theorem rsvField_eq_zero_iff (w : Word) : rsvField w = 0x0#4 ↔ w.toNat / 256 % 16 = 0 := by
  rw [← rsvField_toNat, ← BitVec.toNat_inj]
  rfl

theorem dataField_eq_zero_iff (w : Word) : dataField w = 0x00#8 ↔ w.toNat % 256 = 0 := by
  rw [← dataField_toNat, ← BitVec.toNat_inj]
  rfl

/-- `DATA` is the word modulo 256. -/
theorem dataField_eq_ofNat (w : Word) : dataField w = BitVec.ofNat 8 w.toNat :=
  BitVec.eq_of_toNat_eq (by rw [dataField_toNat, BitVec.toNat_ofNat])

theorem opcodeUnassigned_opField_iff (w : Word) :
    opcodeUnassigned (opField w) = true ↔ w.toNat / 4096 = 0 ∨ 8 ≤ w.toNat / 4096 := by
  rw [opcodeUnassigned_iff, opField_eq_iff, BitVec.le_def, opField_toNat]
  rfl

/-- Settles O4: the fields in numbers, and then the command of each assigned opcode. -/
theorem decodingChecksInOrder : Obligations.DecodingChecksInOrder := by
  refine ⟨fun w => ?_, fun w r s h => acceptWord_illegal s h⟩
  cases hop : opcodeUnassigned (opField w) with
  | true =>
    rw [decode_of_unassigned hop, if_pos ((opcodeUnassigned_opField_iff w).mp hop)]
  | false =>
    have assigned : ¬(w.toNat / 4096 = 0 ∨ 8 ≤ w.toNat / 4096) := by
      rw [← opcodeUnassigned_opField_iff, hop]
      exact Bool.false_ne_true
    rw [if_neg assigned]
    by_cases hrsv : rsvField w = 0x0#4
    · rw [decode_of_assigned hop hrsv, if_neg (not_not.mpr ((rsvField_eq_zero_iff w).mp hrsv)),
        ← dataField_eq_ofNat, ← opField_toNat]
      simp only [← dataField_eq_zero_iff]
      obtain h | h | h | h | h | h | h := assigned_opcode_cases hop <;> rw [h] <;> rfl
    · rw [decode_of_reserved hop hrsv, if_pos (mt (rsvField_eq_zero_iff w).mpr hrsv)]

/-- Settles O5: fixed words, each decoded by evaluation. -/
theorem sampleWordsDecode : Obligations.SampleWordsDecode := by
  unfold Obligations.SampleWordsDecode
  decide

/-! ### The words of the commands and pseudo-instructions -/

/-- The word of a command is its opcode's, with the operand in `DATA` (30_encoding.md R64, R72). -/
theorem encode_eq_or (i : Instr) :
    encode i = (opcodeOf i ++ 0b0000#4 ++ 0x00#8) ||| (operandOf i).setWidth 16 := by
  calc encode i
      = ((opcodeOf i ++ 0b0000#4) ||| 0x00#8) ++ (0x00#8 ||| operandOf i) := by
        rw [BitVec.or_zero, BitVec.zero_or, encode]
    _ = (opcodeOf i ++ 0b0000#4 ++ 0x00#8) ||| (0x00#8 ++ operandOf i) := BitVec.or_append.symm
    _ = (opcodeOf i ++ 0b0000#4 ++ 0x00#8) ||| (operandOf i).setWidth 16 := by
        rw [BitVec.setWidth_eq_append (by decide)]
        rfl

/-- A byte of a source line in the low half of a word. -/
theorem setWidth_byteOf {n : Nat} (hn : n < 256) : (byteOf n).setWidth 16 = BitVec.ofNat 16 n := by
  apply BitVec.eq_of_toNat_eq
  simp [byteOf]
  omega

theorem encode_ckinit (d : Byte) : encode (.ckinit d) = 0x1000#16 ||| d.setWidth 16 := by
  simp [encode_eq_or, opcodeOf, operandOf]

theorem encode_ckadd (d : Byte) : encode (.ckadd d) = 0x2000#16 ||| d.setWidth 16 := by
  simp [encode_eq_or, opcodeOf, operandOf]

theorem encode_ckver (d : Byte) : encode (.ckver d) = 0x5000#16 ||| d.setWidth 16 := by
  simp [encode_eq_or, opcodeOf, operandOf]

theorem encode_pidenc (d : Byte) : encode (.pidenc d) = 0x6000#16 ||| d.setWidth 16 := by
  simp [encode_eq_or, opcodeOf, operandOf]

theorem encode_piddec (d : Byte) : encode (.piddec d) = 0x7000#16 ||| d.setWidth 16 := by
  simp [encode_eq_or, opcodeOf, operandOf]

/-- A command that takes an immediate assembles, with one in range, to its word (30_encoding.md R71, R72). -/
theorem assembleLine_command {m : Mnemonic} {n : Nat} (hm : m.takesImmediate = true) (hn : n < 256) :
    assembleLine (.command m (some n)) = .ok [encode (instrOf m (byteOf n))] :=
  assembleLine_eq_ok_iff.mpr ⟨by simp [AsmLine.wellFormed, commandOk, immediateOk, hm, hn], rfl⟩

/-- Settles O6: each of the five takes the immediate, which stands in `DATA` under the command's opcode. -/
theorem commandSpellingsGiveTheseWords : Obligations.CommandSpellingsGiveTheseWords := by
  refine ⟨fun n hn => ?_, rfl, rfl⟩
  rw [← setWidth_byteOf hn, ← encode_ckinit, ← encode_ckadd, ← encode_ckver, ← encode_pidenc, ← encode_piddec]
  exact ⟨assembleLine_command rfl hn, assembleLine_command rfl hn, assembleLine_command rfl hn,
    assembleLine_command rfl hn, assembleLine_command rfl hn⟩

/-! ### What the assembler takes -/

theorem immediateOk_iff (n : Nat) : immediateOk n = true ↔ n < 256 := decide_eq_true_iff

/-- A command without operand stands without an immediate (30_encoding.md R70). -/
theorem commandOk_iff_of_not_takesImmediate {m : Mnemonic} (hm : m.takesImmediate = false) (imm : Option Nat) :
    commandOk m imm = true ↔ imm = none := by
  cases imm <;> simp [commandOk, hm]

/-- Any other command stands with an immediate in range (30_encoding.md R70, R71). -/
theorem commandOk_iff_of_takesImmediate {m : Mnemonic} (hm : m.takesImmediate = true) (imm : Option Nat) :
    commandOk m imm = true ↔ ∃ n, imm = some n ∧ n < 256 := by
  cases imm <;> simp [commandOk, immediateOk, hm]

theorem takesImmediate_of_ne {m : Mnemonic} (hraw : m ≠ .ckraw) (hres : m ≠ .ckres) :
    m.takesImmediate = true := by
  cases m <;> trivial

/-- A command without operand assembles alone, to the one word it has. -/
theorem assembleLine_eq_ok_iff_of_not_takesImmediate {m : Mnemonic} (hm : m.takesImmediate = false)
    (imm : Option Nat) (ws : List Word) :
    assembleLine (.command m imm) = .ok ws ↔ imm = none ∧ ws = [encode (instrOf m 0x00#8)] := by
  rw [assembleLine_eq_ok_iff, AsmLine.wellFormed, commandOk_iff_of_not_takesImmediate hm]
  exact and_congr_right fun himm => by rw [himm]; rfl

/-- Any other command assembles with an immediate in range, to the word with that operand. -/
theorem assembleLine_eq_ok_iff_of_takesImmediate {m : Mnemonic} (hm : m.takesImmediate = true)
    (imm : Option Nat) (ws : List Word) :
    assembleLine (.command m imm) = .ok ws ↔
      ∃ n, imm = some n ∧ n < 256 ∧ ws = [encode (instrOf m (byteOf n))] := by
  rw [assembleLine_eq_ok_iff, AsmLine.wellFormed, commandOk_iff_of_takesImmediate hm]
  constructor
  · rintro ⟨⟨n, rfl, hn⟩, hws⟩
    exact ⟨n, rfl, hn, hws⟩
  · rintro ⟨n, rfl, hn, hws⟩
    exact ⟨⟨n, rfl, hn⟩, hws⟩

/-- The words that add these bytes (30_encoding.md R72). -/
def addWords (d : List Nat) : List Word := d.map fun n => 0x2000#16 ||| BitVec.ofNat 16 n

/-- The words of a sequence that adds the bytes of a list between two other commands (30_encoding.md R74). -/
theorem encode_addAll_between {d : List Nat} (hd : byteListOk d = true) (first last : Instr) :
    (first :: (addAll (d.map byteOf) ++ [last])).map encode = encode first :: (addWords d ++ [encode last]) := by
  have adds : (addAll (d.map byteOf)).map encode = addWords d := by
    rw [addAll, addWords, List.map_map, List.map_map]
    refine List.map_congr_left fun n hn => ?_
    have hlt : n < 256 := ((byteListOk_iff d).mp hd).2 n hn
    exact (encode_ckadd _).trans (by rw [setWidth_byteOf hlt])
  rw [List.map_cons, List.map_append, adds]
  rfl

theorem assembleLine_calcClassic (d : List Nat) (ws : List Word) :
    assembleLine (.pseudo (.calcClassic d)) = .ok ws ↔
      byteListOk d = true ∧ ws = 0x1000#16 :: (addWords d ++ [0x4000#16]) := by
  rw [assembleLine_eq_ok_iff, AsmLine.wellFormed, Pseudo.wellFormed]
  refine and_congr_right fun hd => ?_
  rw [lineWords, pseudoBytes, expandWords, expand, encode_addAll_between hd]
  rfl

theorem assembleLine_calcEnhanced (pid : Nat) (d : List Nat) (ws : List Word) :
    assembleLine (.pseudo (.calcEnhanced pid d)) = .ok ws ↔
      pid < 256 ∧ byteListOk d = true ∧
        ws = (0x1000#16 ||| BitVec.ofNat 16 pid) :: (addWords d ++ [0x4000#16]) := by
  rw [assembleLine_eq_ok_iff, AsmLine.wellFormed, Pseudo.wellFormed, Bool.and_eq_true, immediateOk_iff, and_assoc]
  refine and_congr_right fun hpid => and_congr_right fun hd => ?_
  rw [lineWords, pseudoBytes, expandWords, expand, encode_addAll_between hd, encode_ckinit, setWidth_byteOf hpid]
  rfl

theorem assembleLine_verifyClassic (c : Nat) (d : List Nat) (ws : List Word) :
    assembleLine (.pseudo (.verifyClassic c d)) = .ok ws ↔
      c < 256 ∧ byteListOk d = true ∧
        ws = 0x1000#16 :: (addWords d ++ [0x5000#16 ||| BitVec.ofNat 16 c]) := by
  rw [assembleLine_eq_ok_iff, AsmLine.wellFormed, Pseudo.wellFormed, Bool.and_eq_true, immediateOk_iff, and_assoc]
  refine and_congr_right fun hc => and_congr_right fun hd => ?_
  rw [lineWords, pseudoBytes, expandWords, expand, encode_addAll_between hd, encode_ckver, setWidth_byteOf hc]
  rfl

theorem assembleLine_verifyEnhanced (c pid : Nat) (d : List Nat) (ws : List Word) :
    assembleLine (.pseudo (.verifyEnhanced c pid d)) = .ok ws ↔
      c < 256 ∧ pid < 256 ∧ byteListOk d = true ∧
        ws = (0x1000#16 ||| BitVec.ofNat 16 pid) :: (addWords d ++ [0x5000#16 ||| BitVec.ofNat 16 c]) := by
  rw [assembleLine_eq_ok_iff, AsmLine.wellFormed, Pseudo.wellFormed, Bool.and_eq_true, Bool.and_eq_true,
    immediateOk_iff, immediateOk_iff, and_assoc, and_assoc]
  refine and_congr_right fun hc => and_congr_right fun hpid => and_congr_right fun hd => ?_
  rw [lineWords, pseudoBytes, expandWords, expand, encode_addAll_between hd, encode_ckinit, setWidth_byteOf hpid,
    encode_ckver, setWidth_byteOf hc]

theorem assembleLine_encodePid (f : Nat) (ws : List Word) :
    assembleLine (.pseudo (.encodePid f)) = .ok ws ↔ f < 256 ∧ ws = [0x6000#16 ||| BitVec.ofNat 16 f] := by
  rw [assembleLine_eq_ok_iff, AsmLine.wellFormed, Pseudo.wellFormed, immediateOk_iff]
  refine and_congr_right fun hf => ?_
  rw [← setWidth_byteOf hf, ← encode_pidenc]
  rfl

theorem assembleLine_decodePid (p : Nat) (ws : List Word) :
    assembleLine (.pseudo (.decodePid p)) = .ok ws ↔ p < 256 ∧ ws = [0x7000#16 ||| BitVec.ofNat 16 p] := by
  rw [assembleLine_eq_ok_iff, AsmLine.wellFormed, Pseudo.wellFormed, immediateOk_iff]
  refine and_congr_right fun hp => ?_
  rw [← setWidth_byteOf hp, ← encode_piddec]
  rfl

/-- Settles O57: a line is taken exactly when it is well-formed, which is said in numbers for each form of line, and its
words are those of its commands. -/
theorem assemblerTakesTheWellFormed : Obligations.AssemblerTakesTheWellFormed := by
  refine ⟨fun imm ws => ⟨?raw, ?res⟩, fun m imm ws hraw hres => ?immediate, fun n ws => ?word,
    fun c pid d ws adds hadds => ?pseudo, fun l => ?taken⟩
  case raw => exact assembleLine_eq_ok_iff_of_not_takesImmediate rfl imm ws
  case res => exact assembleLine_eq_ok_iff_of_not_takesImmediate rfl imm ws
  case immediate => exact assembleLine_eq_ok_iff_of_takesImmediate (takesImmediate_of_ne hraw hres) imm ws
  case word => exact assembleLine_eq_ok_iff.trans (and_congr decide_eq_true_iff Iff.rfl)
  case pseudo =>
    rw [← byteListOk_iff, show adds = addWords d from hadds]
    exact ⟨assembleLine_calcClassic d ws, assembleLine_calcEnhanced pid d ws, assembleLine_verifyClassic c d ws,
      assembleLine_verifyEnhanced c pid d ws, assembleLine_encodePid c ws, assembleLine_decodePid c ws⟩
  case taken =>
    constructor
    · rintro ⟨ws, hws⟩
      exact (assembleLine_eq_ok_iff.mp hws).1
    · exact fun hl => ⟨lineWords l, assembleLine_eq_ok_iff.mpr ⟨hl, rfl⟩⟩

end Sys2Proof.Machine

/-! Proofs about the checksum (40_checksum.md): the adder and the accumulation in numbers, the five commands, and the
public operations built of them. -/

namespace Sys2Proof.Machine

/-! ### A sum folded into 8 bits -/

/-- A sum with every carry out of 8 bits folded back in: zero stays zero, and any other sum becomes the one number from 1
to 255 that equals it modulo 255 (40_checksum.md R108). -/
def foldedSum (S : Nat) : Nat := if S = 0 then 0 else 1 + (S - 1) % 255

/-- Two sums fold to the same number when they agree modulo 255 and in being zero. -/
theorem foldedSum_eq_iff (m n : Nat) : foldedSum m = foldedSum n ↔ (m = 0 ↔ n = 0) ∧ m % 255 = n % 255 := by
  unfold foldedSum
  split_ifs <;> omega

theorem foldedSum_eq_zero_iff (S : Nat) : foldedSum S = 0 ↔ S = 0 := by
  unfold foldedSum
  split_ifs <;> omega

theorem foldedSum_eq_255_iff (S : Nat) : foldedSum S = 255 ↔ 0 < S ∧ S % 255 = 0 := by
  unfold foldedSum
  split_ifs with hS
  · simp [hS]
  · omega

theorem foldedSum_of_mod_ne_zero {S : Nat} (h : S % 255 ≠ 0) : foldedSum S = S % 255 := by
  unfold foldedSum
  split_ifs <;> omega

theorem foldedSum_of_lt {S : Nat} (h : S < 256) : foldedSum S = S := by
  unfold foldedSum
  split_ifs <;> omega

/-- Folding on the way does not change what the whole sum folds to. -/
theorem foldedSum_foldedSum_add (m n : Nat) : foldedSum (foldedSum m + n) = foldedSum (m + n) := by
  rw [foldedSum_eq_iff]
  unfold foldedSum
  split_ifs <;> omega

/-- The adder folds the sum of its operands (40_checksum.md R100). -/
theorem eacAdd_toNat_eq_foldedSum (a b : Byte) : (eacAdd a b).toNat = foldedSum (a.toNat + b.toNat) := by
  have ha := a.isLt
  have hb := b.isLt
  rw [eacAdd_toNat]
  unfold foldedSum
  split_ifs <;> omega

/-! ### The adder -/

/-- The adder's result is the low byte of the sum and its carry, which together need no ninth bit (40_checksum.md R100,
R101). -/
theorem eacAdd_toNat_eq_mod_add_div (a b : Byte) :
    (eacAdd a b).toNat = (a.toNat + b.toNat) % 256 + (a.toNat + b.toNat) / 256 := by
  have ha := a.isLt
  have hb := b.isLt
  rw [eacAdd_toNat]
  split <;> omega

/-- A byte is zero exactly when its number is. -/
theorem byte_eq_zero_iff (b : Byte) : b = 0x00#8 ↔ b.toNat = 0 := BitVec.toNat_inj.symm

/-- A byte is all ones exactly when its number is 255. -/
theorem byte_eq_allOnes_iff (b : Byte) : b = 0xFF#8 ↔ b.toNat = 255 := BitVec.toNat_inj.symm

theorem eacAdd_eq_zero_iff (a b : Byte) : eacAdd a b = 0x00#8 ↔ a = 0x00#8 ∧ b = 0x00#8 := by
  simp only [byte_eq_zero_iff, eacAdd_toNat_eq_foldedSum, foldedSum_eq_zero_iff, Nat.add_eq_zero_iff]

/-- Settles O39: both halves from what the adder computes as a number. -/
theorem endAroundCarryFoldsOnce : Obligations.EndAroundCarryFoldsOnce :=
  fun a b => ⟨eacAdd_toNat_eq_mod_add_div a b, eacAdd_eq_zero_iff a b⟩

/-- Adding `0x00` changes nothing. -/
theorem eacAdd_zero (a : Byte) : eacAdd a 0x00#8 = a := by
  apply BitVec.eq_of_toNat_eq
  rw [eacAdd_toNat_eq_foldedSum]
  exact foldedSum_of_lt a.isLt

/-- Adding to `0x00` gives the other operand. -/
theorem zero_eacAdd (b : Byte) : eacAdd 0x00#8 b = b := by
  apply BitVec.eq_of_toNat_eq
  rw [eacAdd_toNat_eq_foldedSum, BitVec.toNat_ofNat, Nat.zero_mod, Nat.zero_add]
  exact foldedSum_of_lt b.isLt

/-- Adding `0xFF` to anything but `0x00` carries, and the carry makes up for the one that is missing. -/
theorem eacAdd_allOnes {a : Byte} (ha : a ≠ 0x00#8) : eacAdd a 0xFF#8 = a := by
  rw [Ne, byte_eq_zero_iff] at ha
  apply BitVec.eq_of_toNat_eq
  rw [eacAdd_toNat, BitVec.toNat_ofNat, if_neg (by omega)]
  omega

/-- Settles O40: the three cases of the adder. -/
theorem ckaddOfZeroAndOfAllOnes : Obligations.CkaddOfZeroAndOfAllOnes := by
  intro s
  refine ⟨?_, fun hacc => ?_, fun hacc => ?_⟩ <;> rw [exec_ckadd]
  · rw [eacAdd_zero]
    rfl
  · rw [eacAdd_allOnes hacc]
    rfl
  · rw [hacc, zero_eacAdd]
    rfl

/-! ### The accumulation in numbers -/

/-- `S` of 40_checksum.md R108: the seed and all bytes, added as numbers. -/
def wholeSum (seed : Byte) (d : List Byte) : Nat := seed.toNat + (d.map BitVec.toNat).sum

theorem wholeSum_cons (seed b : Byte) (d : List Byte) : wholeSum seed (b :: d) = b.toNat + wholeSum seed d := by
  simp only [wholeSum, List.map_cons, List.sum_cons]
  omega

/-- A byte in the middle counts for itself, beside the rest of the sum. -/
theorem wholeSum_append_cons (seed x : Byte) (pre post : List Byte) :
    wholeSum seed (pre ++ x :: post) =
      seed.toNat + (pre.map BitVec.toNat).sum + (post.map BitVec.toNat).sum + x.toNat := by
  simp only [wholeSum, List.map_append, List.map_cons, List.sum_append, List.sum_cons]
  omega

theorem wholeSum_eq_zero_iff (seed : Byte) (d : List Byte) :
    wholeSum seed d = 0 ↔ seed = 0x00#8 ∧ ∀ b ∈ d, b = 0x00#8 := by
  simp only [wholeSum, Nat.add_eq_zero_iff, List.sum_eq_zero_iff, List.forall_mem_map, byte_eq_zero_iff]

theorem wholeSum_le (seed : Byte) (d : List Byte) : wholeSum seed d ≤ 255 * (d.length + 1) := by
  have hseed := seed.isLt
  have hbytes : (d.map BitVec.toNat).sum ≤ (d.map BitVec.toNat).length • 255 :=
    List.sum_le_card_nsmul _ _ (List.forall_mem_map.mpr fun b _ => Nat.le_of_lt_succ b.isLt)
  rw [List.length_map, smul_eq_mul] at hbytes
  rw [wholeSum]
  omega

theorem wholeSum_replicate (n : Nat) (b : Byte) : wholeSum 0x00#8 (List.replicate n b) = n * b.toNat := by
  simp [wholeSum]

/-- The closed form of the accumulation (40_checksum.md R108), by induction on the bytes: folding at every byte is folding
once at the end. -/
theorem accumulate_toNat (seed : Byte) (d : List Byte) : (accumulate seed d).toNat = foldedSum (wholeSum seed d) := by
  induction d generalizing seed with
  | nil => exact (foldedSum_of_lt seed.isLt).symm
  | cons b d ih =>
    rw [accumulate_cons, ih, wholeSum, eacAdd_toNat_eq_foldedSum, foldedSum_foldedSum_add, wholeSum, List.map_cons,
      List.sum_cons, Nat.add_assoc]

/-- Two accumulations agree exactly when their whole sums fold to the same number. -/
theorem accumulate_eq_iff (seed seed' : Byte) (d d' : List Byte) :
    accumulate seed d = accumulate seed' d' ↔ foldedSum (wholeSum seed d) = foldedSum (wholeSum seed' d') := by
  rw [← BitVec.toNat_inj, accumulate_toNat, accumulate_toNat]

theorem accumulate_eq_zero_iff (seed : Byte) (d : List Byte) :
    accumulate seed d = 0x00#8 ↔ wholeSum seed d = 0 := by
  rw [byte_eq_zero_iff, accumulate_toNat, foldedSum_eq_zero_iff]

theorem accumulate_eq_allOnes_iff (seed : Byte) (d : List Byte) :
    accumulate seed d = 0xFF#8 ↔ 0 < wholeSum seed d ∧ wholeSum seed d % 255 = 0 := by
  rw [byte_eq_allOnes_iff, accumulate_toNat, foldedSum_eq_255_iff]

/-- Settles O41: the accumulation is the whole sum folded, and each clause is a fact about folding. -/
theorem accumulationClosedForm : Obligations.AccumulationClosedForm := by
  rintro seed d S rfl
  refine ⟨wholeSum_le seed d, accumulate_toNat seed d, ?_, accumulate_eq_allOnes_iff seed d, fun hmod => ?_⟩
  · exact (accumulate_eq_zero_iff seed d).trans (wholeSum_eq_zero_iff seed d)
  · exact (accumulate_toNat seed d).trans (foldedSum_of_mod_ne_zero hmod)

/-- Settles O42: neither the order nor the choice of the seed changes the whole sum. -/
theorem accumulationIgnoresOrder : Obligations.AccumulationIgnoresOrder := by
  refine ⟨fun seed d d' hperm => ?_, fun s b d => ?_⟩ <;> rw [accumulate_eq_iff]
  · rw [wholeSum, (hperm.map BitVec.toNat).sum_eq, wholeSum]
  · rw [wholeSum_cons, wholeSum_cons, wholeSum, wholeSum, Nat.add_left_comm]

/-! ### The delayed-carry reading -/

/-- One byte keeps the accumulator and the pending carry adding up to the folded accumulator. -/
theorem delayedAdd_sum_add_carry {st : Delayed} {a : Byte} (h : st.sum.toNat + st.carry.toNat = a.toNat) (b : Byte) :
    (delayedAdd st b).sum.toNat + (delayedAdd st b).carry.toNat = (eacAdd a b).toNat := by
  have nineBits := delayedAdd_toNat st b
  have hsum := (delayedAdd st b).sum.isLt
  have hcarry := (delayedAdd st b).carry.isLt
  have ha := a.isLt
  have hb := b.isLt
  rw [eacAdd_toNat]
  split <;> omega

/-- After every byte the accumulator and the pending carry add up to the folded accumulator (40_checksum.md R116), by
induction on the bytes from the last. -/
theorem delayedState_sum_add_carry (seed : Byte) (d : List Byte) :
    (delayedState seed d).sum.toNat + (delayedState seed d).carry.toNat = (accumulate seed d).toNat := by
  induction d using List.reverseRecOn with
  | nil => rfl
  | append_singleton d b ih =>
    rw [delayedState_concat, accumulate_append]
    exact delayedAdd_sum_add_carry ih b

/-- Settles O43: the two add up to a byte's number, so adding them in 8 bits gives that byte. -/
theorem delayedCarryGivesTheSame : Obligations.DelayedCarryGivesTheSame := by
  intro seed d
  have total := delayedState_sum_add_carry seed d
  have hlt := (accumulate seed d).isLt
  have hcarry := (delayedState seed d).carry.isLt
  refine ⟨total, by omega, BitVec.eq_of_toNat_eq ?_⟩
  rw [accumulateDelayed, BitVec.toNat_add, BitVec.toNat_setWidth]
  omega

/-! ### The five commands -/

/-- A word put together from an opcode, zeros and a byte is the opcode's word with the byte in `DATA`. -/
theorem append_zero_append_eq_or (op : BitVec 4) (d : Byte) :
    op ++ 0b0000#4 ++ d = (op ++ 0b0000#4 ++ 0x00#8) ||| d.setWidth 16 := by
  have zeroExtended : d.setWidth 16 = 0x00#8 ++ d := BitVec.setWidth_eq_append (by decide)
  rw [zeroExtended, BitVec.or_append, BitVec.or_zero, BitVec.zero_or]

/-- A word with an assigned opcode and `RSV = 0` is decoded by its opcode (30_encoding.md R69). -/
theorem decode_or_setWidth {op : BitVec 4} (hop : opcodeUnassigned op = false) (d : Byte) :
    decode ((op ++ 0b0000#4 ++ 0x00#8) ||| d.setWidth 16) = decodeOp op d := by
  rw [← append_zero_append_eq_or]
  obtain ⟨hwop, hrsv, hdata⟩ := Laws.EncodeFields.fields_of_append op d
  rw [decode_of_assigned (by rw [hwop, hop]) hrsv, hwop, hdata]

theorem noOperand_of_ne_zero (i : Instr) {d : Byte} (hd : d ≠ 0x00#8) :
    noOperand i d = .illegal .dataMustBeZero := if_neg hd

/-- Settles O7: the word is the encoding of the command, whose meaning is one write of `ACC`. -/
theorem ckinitLoadsTheSeed : Obligations.CkinitLoadsTheSeed := by
  intro seed s
  rw [← encode_ckinit]
  exact ⟨decode_encode _, exec_ckinit seed s⟩

/-- Settles O8: the word is the encoding of the command, whose meaning writes the adder's result. -/
theorem ckaddFoldsTheCarry : Obligations.CkaddFoldsTheCarry := by
  intro b s
  rw [← encode_ckadd, ← eacAdd_toNat_eq_mod_add_div, BitVec.ofNat_toNat, BitVec.setWidth_eq]
  exact ⟨decode_encode _, exec_ckadd b s⟩

/-- Settles O9: opcode `0x3` is decoded with no operand; the meaning is one write of `RES`. -/
theorem ckrawCopiesTheAccumulator : Obligations.CkrawCopiesTheAccumulator := by
  refine ⟨decode_encode .ckraw, fun d hd => ?_, exec_ckraw, fun seed s => ?_⟩
  · exact (decode_or_setWidth (op := 0x3#4) rfl d).trans (noOperand_of_ne_zero .ckraw hd)
  · simp only [runInstrs_cons, acceptWord_encode, exec_ckinit, exec_ckraw, andThen_next, runInstrs_nil]
    rfl

theorem onesComplement_eq_xor (a : Byte) : onesComplement a = 0xFF#8 ^^^ a := BitVec.allOnes_xor.symm

theorem onesComplement_injective : Function.Injective onesComplement := fun _ _ h => BitVec.not_inj.mp h

/-- A run that loads a seed, adds the bytes and ends with one command is that command on the accumulation
(30_encoding.md R74). -/
theorem runInstrs_ckinit_addAll (seed : Byte) (d : List Byte) (i : Instr) (s : State) :
    runInstrs (.ckinit seed :: (addAll d ++ [i])) s = exec i (s.setAcc (accumulate seed d)) := by
  rw [runInstrs_cons, acceptWord_encode, exec_ckinit, andThen_next, runInstrs_addAll_append, runInstrs_singleton]
  rfl

/-- Settles O10: opcode `0x4` is decoded with no operand; the meaning is one write of `RES` that reads `ACC` alone, and
the complement is `0xFF` exactly where the accumulation is zero. -/
theorem ckresGivesTheComplement : Obligations.CkresGivesTheComplement := by
  refine ⟨decode_encode .ckres, fun d hd => ?illegal, fun s => ?meaning, fun s => ?twice, fun b s => ?continued,
    fun seed d s => ?allOnes⟩
  case illegal => exact (decode_or_setWidth (op := 0x4#4) rfl d).trans (noOperand_of_ne_zero .ckres hd)
  case meaning =>
    rw [← onesComplement_eq_xor]
    exact exec_ckres s
  case twice =>
    simp only [runInstrs_cons, acceptWord_encode, exec_ckres, andThen_next, runInstrs_nil]
    rfl
  case continued =>
    rw [← onesComplement_eq_xor]
    simp only [runInstrs_cons, acceptWord_encode, exec_ckres, exec_ckadd, andThen_next, runInstrs_nil]
    rfl
  case allOnes =>
    refine ⟨_, (runInstrs_ckinit_addAll seed d .ckres s).trans (exec_ckres _), ?_⟩
    calc onesComplement (accumulate seed d) = onesComplement 0x00#8
        ↔ accumulate seed d = 0x00#8 := onesComplement_injective.eq_iff
      _ ↔ wholeSum seed d = 0 := accumulate_eq_zero_iff seed d

theorem verifySum_eq_ofNat (a c : Byte) : verifySum a c = BitVec.ofNat 8 ((a.toNat + c.toNat) % 256) := by
  rw [← verifySum_toNat, BitVec.ofNat_toNat, BitVec.setWidth_eq]

theorem verifyMatch_eq_decide (a c : Byte) :
    verifyMatch (verifySum a c) = decide ((a.toNat + c.toNat) % 256 = 255) := by
  rw [← verifySum_toNat, verifyMatch, beq_eq_decide]
  exact decide_eq_decide.mpr (byte_eq_allOnes_iff _)

/-- The meaning of `CKVER` in numbers (40_checksum.md R107). -/
theorem exec_ckver_in_numbers (c : Byte) (s : State) :
    exec (.ckver c) s =
      .next { s with
        res := BitVec.ofNat 8 ((s.acc.toNat + c.toNat) % 256)
        ok := decide ((s.acc.toNat + c.toNat) % 256 = 255) } := by
  rw [← verifySum_eq_ofNat, ← verifyMatch_eq_decide]
  exact exec_ckver c s

/-- Settles O11: the word is the encoding of the command, whose meaning is said in numbers. -/
theorem ckverAddsWithoutTheCarry : Obligations.CkverAddsWithoutTheCarry := by
  intro c s
  rw [← encode_ckver]
  exact ⟨decode_encode _, exec_ckver_in_numbers c s⟩

/-- Settles O17: every command answers, and none writes `ERR`. -/
theorem noCommandRaisesAnError : Obligations.NoCommandRaisesAnError := by
  intro i s
  obtain ⟨t, ht⟩ := exec_answers i s
  exact ⟨t, ht, exec_err ht⟩

/-! ### The public operations -/

/-- `CALC_CLASSIC` is `CALC_ENHANCED` of the seed zero (40_checksum.md R111). -/
theorem expand_calcClassic (d : List Byte) : expand (.calcClassic d) = expand (.calcEnhanced 0x00#8 d) := rfl

/-- `VERIFY_CLASSIC` is `VERIFY_ENHANCED` of the seed zero (40_checksum.md R113). -/
theorem expand_verifyClassic (c : Byte) (d : List Byte) :
    expand (.verifyClassic c d) = expand (.verifyEnhanced c 0x00#8 d) := rfl

theorem runInstrs_calcEnhanced (pid : Byte) (d : List Byte) (s : State) :
    runInstrs (expand (.calcEnhanced pid d)) s =
      .next { s with acc := accumulate pid d, res := ~~~(accumulate pid d) } :=
  (runInstrs_ckinit_addAll pid d .ckres s).trans (exec_ckres _)

theorem runInstrs_verifyEnhanced (c pid : Byte) (d : List Byte) (s : State) :
    runInstrs (expand (.verifyEnhanced c pid d)) s = exec (.ckver c) (s.setAcc (accumulate pid d)) :=
  runInstrs_ckinit_addAll pid d (.ckver c) s

theorem accumulate_replicate_zero (n : Nat) : accumulate 0x00#8 (List.replicate n 0x00#8) = 0x00#8 := by
  rw [accumulate_eq_zero_iff, wholeSum_replicate]
  exact Nat.mul_zero n

theorem accumulate_replicate_allOnes {n : Nat} (hn : n ≠ 0) :
    accumulate 0x00#8 (List.replicate n 0xFF#8) = 0xFF#8 := by
  rw [accumulate_eq_allOnes_iff, wholeSum_replicate]
  exact ⟨Nat.mul_pos (Nat.pos_of_ne_zero hn) (by decide), Nat.mul_mod_left n 255⟩

/-- Settles O44: the run is `CALC_ENHANCED`'s of the seed zero, and the corner cases are the extreme values of the closed
form. -/
theorem calcClassicComputesTheChecksum : Obligations.CalcClassicComputesTheChecksum := by
  refine ⟨runInstrs_calcEnhanced 0x00#8, fun n => ?zeros, fun n => ?allOnes⟩
  case zeros =>
    rw [accumulate_replicate_zero]
    rfl
  case allOnes =>
    split
    case isTrue hn =>
      rw [hn, List.replicate_zero, accumulate_nil]
      rfl
    case isFalse hn =>
      rw [accumulate_replicate_allOnes hn]
      rfl

/-- Settles O45: the run of the operation, for any list and for the empty one. -/
theorem calcEnhancedComputesTheChecksum : Obligations.CalcEnhancedComputesTheChecksum :=
  fun pid d s => ⟨runInstrs_calcEnhanced pid d s, runInstrs_calcEnhanced pid [] s, by rw [expand_calcClassic]⟩

/-- Settles O47: `CKVER` in numbers, on the accumulation. -/
theorem verifyEnhancedChecksTheChecksum : Obligations.VerifyEnhancedChecksTheChecksum :=
  fun c pid d s => (runInstrs_verifyEnhanced c pid d s).trans (exec_ckver_in_numbers c _)

/-- Settles O46: `VERIFY_ENHANCED` of the seed zero. -/
theorem verifyClassicChecksTheChecksum : Obligations.VerifyClassicChecksTheChecksum :=
  fun c d s => verifyEnhancedChecksTheChecksum c 0x00#8 d s

/-! ### What a verify detects -/

/-- The sum of 8 bits is all ones exactly for the complement (40_checksum.md R114). -/
theorem add_mod_eq_255_iff (a c : Byte) : (a.toNat + c.toNat) % 256 = 255 ↔ c = onesComplement a := by
  have ha := a.isLt
  have hc := c.isLt
  rw [← BitVec.toNat_inj, onesComplement_toNat]
  omega

theorem verifyMatch_iff (a c : Byte) : verifyMatch (verifySum a c) = true ↔ c = onesComplement a := by
  rw [verifyMatch_eq_decide, decide_eq_true_iff, add_mod_eq_255_iff]

/-- `VERIFY_ENHANCED` passes the enhanced checksum and no other (40_checksum.md R113, R114). -/
theorem verifyEnhanced_ok_iff (c pid : Byte) (d : List Byte) (s : State) :
    ∃ t, runInstrs (expand (.verifyEnhanced c pid d)) s = .next t ∧ (t.ok = true ↔ c = enhancedChecksum pid d) :=
  ⟨_, (runInstrs_verifyEnhanced c pid d s).trans (exec_ckver c _), verifyMatch_iff _ c⟩

/-- `CALC_ENHANCED` and then `VERIFY_ENHANCED` of the result pass (40_checksum.md R114). -/
theorem verifyEnhanced_of_calcEnhanced (pid : Byte) (d : List Byte) (s : State) :
    ∃ t u, runInstrs (expand (.calcEnhanced pid d)) s = .next t ∧
      runInstrs (expand (.verifyEnhanced t.res pid d)) t = .next u ∧ u.ok = true := by
  obtain ⟨u, hu, hok⟩ := verifyEnhanced_ok_iff (enhancedChecksum pid d) pid d
    { s with acc := accumulate pid d, res := enhancedChecksum pid d }
  exact ⟨_, u, runInstrs_calcEnhanced pid d s, hu, hok.mpr rfl⟩

/-- Settles O48: `OK` is set exactly for the complement, which is what `CKRES` gives; the classic operations are the
enhanced ones of the seed zero. -/
theorem verifyAgreesWithCompare : Obligations.VerifyAgreesWithCompare :=
  ⟨add_mod_eq_255_iff, fun c s => ⟨_, _, exec_ckver c s, exec_ckres s, verifyMatch_iff s.acc c⟩,
    verifyEnhanced_of_calcEnhanced 0x00#8, verifyEnhanced_of_calcEnhanced⟩

theorem enhancedChecksum_eq_iff (pid pid' : Byte) (d d' : List Byte) :
    enhancedChecksum pid d = enhancedChecksum pid' d' ↔ accumulate pid d = accumulate pid' d' :=
  onesComplement_injective.eq_iff

/-- Two different bytes beside the same rest `m` of a sum fold to the same number exactly when they are `0x00` and `0xFF`
and the rest is not zero (40_checksum.md R115). -/
theorem foldedSum_add_eq_iff {x y : Byte} (hne : x ≠ y) (m : Nat) :
    foldedSum (m + x.toNat) = foldedSum (m + y.toNat) ↔
      ((x = 0x00#8 ∧ y = 0xFF#8) ∨ (x = 0xFF#8 ∧ y = 0x00#8)) ∧ 0 < m := by
  have hx := x.isLt
  have hy := y.isLt
  rw [Ne, ← BitVec.toNat_inj] at hne
  simp only [foldedSum_eq_iff, byte_eq_zero_iff, byte_eq_allOnes_iff]
  omega

/-- Settles O49: the verify passes exactly when both lists have one checksum, which is when their whole sums, equal but for
the changed byte, fold to the same number. -/
theorem verifyDetectsAllButTheSwap : Obligations.VerifyDetectsAllButTheSwap := by
  refine ⟨fun seed x y pre post s hne => ?changedByte, fun c seed d s hc => ?changedChecksum,
    fun c d s => by rw [expand_verifyClassic]⟩
  case changedByte =>
    obtain ⟨t, ht, hok⟩ :=
      verifyEnhanced_ok_iff (enhancedChecksum seed (pre ++ x :: post)) seed (pre ++ y :: post) s
    refine ⟨t, ht, ?_⟩
    rw [hok, enhancedChecksum_eq_iff, accumulate_eq_iff, wholeSum_append_cons, wholeSum_append_cons,
      foldedSum_add_eq_iff hne]
  case changedChecksum =>
    obtain ⟨t, ht, hok⟩ := verifyEnhanced_ok_iff c seed d s
    exact ⟨t, ht, Bool.eq_false_iff.mpr (mt hok.mp hc)⟩

end Sys2Proof.Machine

/-! Proofs about the protected identifier (41_protected_id.md): a byte as parity bits and an identifier, the encoding and
its table, the two commands, and what the parity detects. -/

namespace Sys2Proof.Machine

/-! ### A byte as parity bits and an identifier -/

@[simp] theorem parityBits_append (top : BitVec 2) (f : Fid) : parityBits (top ++ f) = top :=
  BitVec.extractLsb'_append_eq_left

@[simp] theorem fidOf_append (top : BitVec 2) (f : Fid) : fidOf (top ++ f) = f :=
  BitVec.extractLsb'_append_eq_right

/-- Two bytes with the same parity bits and the same identifier are one byte. -/
theorem byte_eq_iff_parityBits_fidOf (p q : Byte) : p = q ↔ parityBits p = parityBits q ∧ fidOf p = fidOf q := by
  simp only [← BitVec.toNat_inj, parityBits_toNat, fidOf_toNat]
  omega

theorem fidOf_eq_ofNat (x : Byte) : fidOf x = BitVec.ofNat 6 (x.toNat % 64) := by
  rw [← fidOf_toNat, BitVec.ofNat_toNat, BitVec.setWidth_eq]

theorem zextFid_fidOf_eq_ofNat (x : Byte) : zextFid (fidOf x) = BitVec.ofNat 8 (x.toNat % 64) := by
  rw [← fidOf_toNat, zextFid, BitVec.ofNat_toNat]

/-- The masking of R154 is the zero extension of R155. -/
theorem zextFid_fidOf (x : Byte) : zextFid (fidOf x) = x &&& 0x3F#8 := by
  rw [zextFid_fidOf_eq_ofNat]
  apply BitVec.eq_of_toNat_eq
  rw [BitVec.toNat_and]
  have masked : x.toNat &&& 63 = x.toNat % 64 := Nat.and_two_pow_sub_one_eq_mod x.toNat 6
  simp [masked]
  omega

theorem fidOf_setWidth (f : Fid) : fidOf (f.setWidth 8) = f := by
  apply BitVec.eq_of_toNat_eq
  have hf := f.isLt
  rw [fidOf_toNat, BitVec.toNat_setWidth]
  omega

@[simp] theorem fidOf_and_mask (x : Byte) : fidOf (x &&& 0x3F#8) = fidOf x := by
  rw [← zextFid_fidOf, zextFid, fidOf_setWidth]

/-! ### The encoding and its table -/

/-- The parity bits of an identifier, `P1` above `P0` (41_protected_id.md R150, R151). -/
def parityOf (f : Fid) : BitVec 2 := BitVec.ofBool (parity1 f) ++ BitVec.ofBool (parity0 f)

/-- The encoding puts the parity bits in front of the identifier (41_protected_id.md R151). -/
theorem encodePid_eq (x : Byte) : encodePid x = parityOf (fidOf x) ++ fidOf x := rfl

@[simp] theorem parityBits_encodePid (x : Byte) : parityBits (encodePid x) = parityOf (fidOf x) :=
  parityBits_append _ _

@[simp] theorem fidOf_encodePid (x : Byte) : fidOf (encodePid x) = fidOf x := fidOf_append _ _

/-- Bytes with the same identifier have the same encoding (41_protected_id.md R156). -/
theorem encodePid_congr {x y : Byte} (h : fidOf x = fidOf y) : encodePid x = encodePid y := by
  rw [encodePid_eq, encodePid_eq, h]

/-- The 64 entries of the table, compared one by one with the encoding (41_protected_id.md R152). -/
theorem memReadPidtab_eq (f : Fid) : memReadPidtab f = parityOf f ++ f := by
  revert f
  decide

theorem memReadPidtab_fidOf (x : Byte) : memReadPidtab (fidOf x) = encodePid x := memReadPidtab_eq _

/-- The parity equations on the byte's own bits (41_protected_id.md R150, R151). -/
theorem encodePid_bits (x : Byte) : encodePid x =
    BitVec.ofBool (!(x.getLsbD 1 ^^ x.getLsbD 3 ^^ x.getLsbD 4 ^^ x.getLsbD 5)) ++
    BitVec.ofBool (x.getLsbD 0 ^^ x.getLsbD 1 ^^ x.getLsbD 2 ^^ x.getLsbD 4) ++ x.extractLsb' 0 6 := by
  simp [encodePid_eq, parityOf, parity0, parity1, fidOf]

/-- Settles O50: the equations are read off the encoding, and the table agrees with it at every identifier. -/
theorem tableHoldsTheParityEncoding : Obligations.TableHoldsTheParityEncoding := by
  refine ⟨encodePid_bits, fun f => ?_⟩
  rw [← memReadPidtab_fidOf, fidOf_setWidth]

/-- Settles O51: masking keeps the identifier, and both the encoding and `PIDENC` read nothing else. -/
theorem encodingIgnoresTheTopBits : Obligations.EncodingIgnoresTheTopBits := by
  refine ⟨fun x => encodePid_congr (fidOf_and_mask x).symm, fun x s => ?_, by decide⟩
  rw [exec_pidenc, exec_pidenc, fidOf_and_mask]

/-! ### The two commands -/

/-- Settles O12: the word is the encoding of the command, whose meaning is one write of `RES`. -/
theorem pidencReadsTheTable : Obligations.PidencReadsTheTable := by
  intro f s
  rw [← encode_pidenc, ← fidOf_eq_ofNat]
  refine ⟨decode_encode _, exec_pidenc f s, memReadPidtab_fidOf f, ?_⟩
  rw [← fidOf_toNat, fidOf_encodePid, fidOf_toNat]

theorem decodePid_eq (p : Byte) : decodePid p = (p &&& 0x3F#8, parityBits (encodePid p) == parityBits p) := by
  rw [decodePid, encodePid_congr (fidOf_and_mask p)]

/-- Settles O52: the table holds the encoding, so the verdict on its entry is the decoding function's. -/
theorem piddecIsTheDecodingFunction : Obligations.PiddecIsTheDecodingFunction := by
  intro p s
  rw [exec_piddec, memReadPidtab_fidOf, zextFid_fidOf, decodePid_eq]
  rfl

theorem parityValid_eq_decide (e p : Byte) : parityValid e p = decide (e.toNat / 64 = p.toNat / 64) := by
  rw [← parityBits_toNat, ← parityBits_toNat, parityValid, beq_eq_decide]
  exact decide_eq_decide.mpr BitVec.toNat_inj.symm

/-- The decoder takes a byte exactly when its parity bits are those of its identifier (41_protected_id.md R154). -/
theorem decodePid_valid_iff_parityBits (p : Byte) : (decodePid p).2 = true ↔ parityBits p = parityOf (fidOf p) := by
  rw [decodePid_eq, parityBits_encodePid, beq_iff_eq, eq_comm]

/-- Settles O13: the word is the encoding of the command, whose meaning is said in numbers; the one value of bits 7:6 is
the identifier's parity. -/
theorem piddecChecksTheParity : Obligations.PiddecChecksTheParity := by
  refine ⟨fun p s => ?_, fun f s => ⟨parityOf f, fun top => ⟨_, piddecIsTheDecodingFunction _ s, ?_⟩⟩⟩
  · rw [← encode_piddec, ← fidOf_eq_ofNat, ← zextFid_fidOf_eq_ofNat, ← parityValid_eq_decide]
    exact ⟨decode_encode _, exec_piddec p s⟩
  · rw [decodePid_valid_iff_parityBits, parityBits_append, fidOf_append]

/-- Decoding an encoding gives the identifier with valid parity (41_protected_id.md R157). -/
theorem decodePid_encodePid (x : Byte) : decodePid (encodePid x) = (x &&& 0x3F#8, true) := by
  apply Prod.ext
  · rw [decodePid_eq, ← zextFid_fidOf, fidOf_encodePid, zextFid_fidOf]
  · rw [decodePid_valid_iff_parityBits, parityBits_encodePid, fidOf_encodePid]

/-- `PIDDEC` of an encoding, whatever the state (41_protected_id.md R157). -/
theorem exec_piddec_encodePid (x : Byte) (s : State) :
    exec (.piddec (encodePid x)) s = .next { s with res := x &&& 0x3F#8, ok := true } := by
  rw [piddecIsTheDecodingFunction, decodePid_encodePid]

/-- Settles O53: each of the two runs is one command, and what `PIDENC` leaves in `RES` is the encoding. -/
theorem encodeThenDecodeRoundTrip : Obligations.EncodeThenDecodeRoundTrip := by
  intro x s
  have encoded : runInstrs (expand (.encodePid x)) s = .next (s.setRes (encodePid x)) := by
    rw [expand, runInstrs_singleton, exec_pidenc, memReadPidtab_fidOf]
  have decoded (t : State) : runInstrs (expand (.decodePid (encodePid x))) t =
      .next { t with res := x &&& 0x3F#8, ok := true } := by
    rw [expand, runInstrs_singleton, exec_piddec_encodePid]
  exact ⟨decodePid_encodePid x, _, _, encoded, decoded _, rfl, rfl⟩

/-! ### What the parity detects -/

/-- The valid bytes are the table's entries (41_protected_id.md R158). -/
theorem decodePid_valid_iff (p : Byte) : (decodePid p).2 = true ↔ p = memReadPidtab (fidOf p) := by
  rw [decodePid_valid_iff_parityBits, memReadPidtab_fidOf, byte_eq_iff_parityBits_fidOf p (encodePid p),
    parityBits_encodePid, fidOf_encodePid]
  exact (and_iff_left rfl).symm

theorem memReadPidtab_injective : Function.Injective memReadPidtab := by
  refine Function.LeftInverse.injective (g := fidOf) fun f => ?_
  rw [memReadPidtab_eq, fidOf_append]

/-- The numbers of the valid bytes are those of the table's entries. -/
theorem validPids_perm :
    ((List.range 256).filter fun n => (decodePid (BitVec.ofNat 8 n)).2).Perm
      ((List.finRange 64).map fun a => (memReadPidtab (BitVec.ofFin a)).toNat) := by
  have entriesNodup : ((List.finRange 64).map fun a => (memReadPidtab (BitVec.ofFin a)).toNat).Nodup :=
    (List.nodup_finRange 64).map fun _ _ h => BitVec.ofFin.inj (memReadPidtab_injective (BitVec.eq_of_toNat_eq h))
  refine (List.perm_ext_iff_of_nodup (List.nodup_range.filter _) entriesNodup).mpr fun n => ?_
  rw [List.mem_filter, List.mem_range, decodePid_valid_iff, List.mem_map]
  constructor
  · rintro ⟨hn, hvalid⟩
    refine ⟨(fidOf (BitVec.ofNat 8 n)).toFin, List.mem_finRange _, ?_⟩
    exact (congrArg BitVec.toNat hvalid).symm.trans (Nat.mod_eq_of_lt hn)
  · rintro ⟨a, -, rfl⟩
    refine ⟨BitVec.isLt _, ?_⟩
    rw [BitVec.ofNat_toNat, BitVec.setWidth_eq, memReadPidtab_eq, fidOf_append, memReadPidtab_eq]

theorem parity0_xor (f g : Fid) : parity0 (f ^^^ g) = (parity0 f ^^ parity0 g) := by
  simp only [parity0, BitVec.getLsbD_xor, Bool.xor_assoc, Bool.xor_left_comm]

theorem parity1_xor (f g : Fid) : parity1 (f ^^^ g) = !(parity1 f ^^ parity1 g) := by
  simp only [parity1, BitVec.getLsbD_xor, Bool.not_xor_not, Bool.xor_assoc, Bool.xor_left_comm]

/-- The parity of a sum of identifiers: `P0` adds, `P1` adds inverted. -/
theorem parityOf_xor (f g : Fid) : parityOf (f ^^^ g) = parityOf f ^^^ parityOf g ^^^ 0b10#2 := by
  rw [parityOf, parityOf, parityOf, parity0_xor, parity1_xor]
  generalize parity0 f = f0, parity1 f = f1, parity0 g = g0, parity1 g = g1
  revert f0 f1 g0 g1
  decide

/-- The change a pattern of flipped bits makes in the comparison of received and expected parity bits: the received bits
it flips, and the parities its identifier bits take part in (41_protected_id.md R158). `P1`'s inversion takes no part. -/
def syndrome (e : Byte) : BitVec 2 := parityBits e ^^^ parityOf (fidOf e) ^^^ 0b10#2

/-- Flipping the bits of `e` in a valid byte gives a valid byte exactly when `e` makes no change in the comparison. -/
theorem decodePid_xor_valid_iff {p : Byte} (hp : (decodePid p).2 = true) (e : Byte) :
    (decodePid (p ^^^ e)).2 = true ↔ syndrome e = 0b00#2 := by
  rw [decodePid_valid_iff_parityBits] at hp ⊢
  have hbits : parityBits (p ^^^ e) = parityBits p ^^^ parityBits e := BitVec.extractLsb'_xor
  have hfid : fidOf (p ^^^ e) = fidOf p ^^^ fidOf e := BitVec.extractLsb'_xor
  rw [hbits, hfid, parityOf_xor, hp, BitVec.xor_assoc, BitVec.xor_right_inj, syndrome, BitVec.xor_assoc,
    BitVec.xor_eq_zero_iff]

/-- Every bit takes part in the comparison (41_protected_id.md R158). -/
theorem syndrome_oneBit_ne_zero : ∀ k < 8, syndrome (0x01#8 <<< k) ≠ 0b00#2 := by decide

/-- Settles O54: the valid bytes are counted as the table's entries; a flipped bit makes a change in the comparison. -/
theorem decoderDetectsSingleBitErrors : Obligations.DecoderDetectsSingleBitErrors := by
  refine ⟨fun p s => ⟨_, piddecIsTheDecodingFunction p s, decodePid_valid_iff p⟩, ?count, fun p k s hp hk => ?oneBit,
    by decide⟩
  case count => rw [validPids_perm.length_eq, List.length_map, List.length_finRange]
  case oneBit =>
    refine ⟨_, piddecIsTheDecodingFunction _ s, Bool.eq_false_iff.mpr fun hvalid => ?_⟩
    have hp : (decodePid p).2 = true := (decodePid_valid_iff p).mpr hp
    exact syndrome_oneBit_ne_zero k hk ((decodePid_xor_valid_iff hp _).mp hvalid)

end Sys2Proof.Machine

/-! Proofs about the exceptions (60_exceptions.md): an illegal word sets `ERR`, `ERR` records it until a reset, and no
command sees it. -/

namespace Sys2Proof.Machine

/-! ### An illegal word -/

/-- Settles O22: accepting an illegal word is raising `IllegalCommand`, which is one write of `ERR`. -/
theorem illegalWordSetsErrAlone : Obligations.IllegalWordSetsErrAlone := by
  intro w r s hd
  calc takeEdge { rst := false, cmdValid := true, cmd := w } s
      = acceptWord w s := takeEdge_of_valid s rfl rfl
    _ = .next (raiseIllegal r s) := acceptWord_illegal s hd

/-- Raising `IllegalCommand` again changes nothing (R188). -/
theorem raiseIllegal_of_err {s : State} (r : IllegalReason) (herr : s.err = true) : raiseIllegal r s = s :=
  State.eq_of_fields rfl rfl rfl herr.symm rfl

theorem causeCode_of_err {s : State} (herr : s.err = true) : causeCode s = 1 := by
  simp [causeCode, herr, Config.illegalCommandCode]

theorem causeCode_of_no_err {s : State} (herr : s.err = false) : causeCode s = 0 := by
  simp [causeCode, herr, Config.noErrorCode]

theorem causeCode_eq_zero_iff (s : State) : causeCode s = 0 ↔ s.err = false := by
  cases herr : s.err with
  | true => simp [causeCode_of_err herr]
  | false => simp [causeCode_of_no_err herr]

/-- Settles O23: the cause code is read off `ERR`, and where `ERR` is set, raising `IllegalCommand` writes nothing new. -/
theorem illegalCommandCauseCode : Obligations.IllegalCommandCauseCode := by
  refine ⟨fun w r s hd => ?code, fun w r s herr hd => ?again, causeCode_eq_zero_iff⟩
  case code => exact ⟨_, acceptWord_illegal s hd, causeCode_of_err (raiseIllegal_err r s)⟩
  case again => rw [acceptWord_illegal s hd, raiseIllegal_of_err r herr]

/-! ### `ERR` records every illegal word -/

/-- The edge drives an illegal word as a command; it is accepted unless a reset wins over it (R201). -/
def Edge.IsIllegal (e : Edge) : Prop := e.cmdValid = true ∧ ∃ r, decode e.cmd = .illegal r

/-- Without reset, `ERR` after an edge is `ERR` before it, or set because the edge's word is illegal. -/
theorem takeEdge_err_iff {e : Edge} {s t : State} (hr : e.rst = false) (h : takeEdge e s = .next t) :
    t.err = true ↔ s.err = true ∨ e.IsIllegal := by
  obtain ⟨hset, hclear, hillegal, -⟩ := onlyIllegalWordsAndResetWriteErr e s t h
  constructor
  · intro ht
    cases hs : s.err with
    | true => exact .inl rfl
    | false => exact .inr (hset hs ht).2
  · rintro (hs | ⟨hv, hword⟩)
    · by_contra ht
      simp [hclear hs (Bool.eq_false_iff.mpr ht)] at hr
    · exact hillegal hr hv hword

/-- Settles O29, by induction on the edges: `takeEdge_err_iff` adds the first edge to what the rest of the run records. -/
theorem errRecordsEveryIllegalWord : Obligations.ErrRecordsEveryIllegalWord := by
  intro es
  induction es with
  | nil => exact fun s _ => ⟨s, rfl, by simp⟩
  | cons e es ih =>
    intro s hrst
    obtain ⟨hr, hrest⟩ := List.forall_mem_cons.mp hrst
    obtain ⟨u, hu⟩ := takeEdge_answers e s
    obtain ⟨t, ht, herr⟩ := ih u hrest
    refine ⟨t, by rw [runEdges_cons, hu, andThen_next, ht], ?_⟩
    calc t.err = true
        ↔ u.err = true ∨ ∃ e' ∈ es, e'.IsIllegal := herr
      _ ↔ (s.err = true ∨ e.IsIllegal) ∨ ∃ e' ∈ es, e'.IsIllegal := or_congr_left (takeEdge_err_iff hr hu)
      _ ↔ s.err = true ∨ ∃ e' ∈ e :: es, e'.IsIllegal := by rw [or_assoc, List.exists_mem_cons_iff]

/-! ### No command sees `ERR` -/

/-- A command does the same whatever `ERR` is, and leaves it as it finds it: in each of the seven meanings the values
written are read off `ACC` and the operand alone. -/
theorem exec_setErr {i : Instr} {s t : State} (b : Bool) (h : exec i s = .next t) :
    exec i (s.setErr b) = .next (t.setErr b) := by
  cases i <;> (cases h; rfl)

/-- An edge keeps two states that differ in `ERR` alone so. -/
theorem takeEdge_setErr {e : Edge} {s t : State} (b : Bool) (h : takeEdge e s = .next t) :
    ∃ b', takeEdge e (s.setErr b) = .next (t.setErr b') := by
  obtain ⟨hr, rfl⟩ | ⟨hr, hv, i, hd, hexec⟩ | ⟨hr, hv, r, hd, rfl⟩ | ⟨hr, hv, rfl⟩ := takeEdge_cases h
  case inl => exact ⟨false, takeEdge_of_rst _ hr⟩
  case inr.inl =>
    refine ⟨b, ?_⟩
    rw [takeEdge_of_valid _ hr hv, acceptWord_command _ hd, exec_setErr b hexec]
  case inr.inr.inl =>
    refine ⟨true, ?_⟩
    rw [takeEdge_of_valid _ hr hv, acceptWord_illegal _ hd]
    rfl
  case inr.inr.inr => exact ⟨b, takeEdge_of_idle _ hr hv⟩

/-- A run from either of two states that differ in `ERR` alone answers a state, and these differ in `ERR` alone. -/
theorem runEdges_setErr (es : List Edge) (s : State) (b : Bool) :
    ∃ t b', runEdges es s = .next t ∧ runEdges es (s.setErr b) = .next (t.setErr b') := by
  induction es generalizing s b with
  | nil => exact ⟨s, b, rfl, rfl⟩
  | cons e es ih =>
    obtain ⟨u, hu⟩ := takeEdge_answers e s
    obtain ⟨c, hc⟩ := takeEdge_setErr b hu
    simpa [hu, hc] using ih u c

/-- Settles O30: the second run ends in the first one's state with another `ERR`, and `setErr` writes no other element. -/
theorem errNeitherBlocksNorChanges : Obligations.ErrNeitherBlocksNorChanges := by
  intro es s b
  obtain ⟨t, b', ht, ht'⟩ := runEdges_setErr es s b
  exact ⟨t, t.setErr b', ht, ht', rfl, rfl, rfl, rfl⟩

end Sys2Proof.Machine

/-! Proofs about reset and hazards (70_reset_and_hazards.md): a reset edge, a run with a reset in it, and idle edges. -/

namespace Sys2Proof.Machine

/-! ### Reset -/

/-- Settles O18: reset is looked at before the command is (R201), and puts the reset state at the same edges to come. -/
theorem resetEdgeClearsEverything : Obligations.ResetEdgeClearsEverything :=
  fun _ _ s => takeEdge_of_rst s rfl

/-- No edge touches the edges still to come (log entry 1). -/
theorem takeEdge_port {e : Edge} {s t : State} (h : takeEdge e s = .next t) : t.port = s.port := by
  obtain ⟨-, rfl⟩ | ⟨-, -, i, -, hexec⟩ | ⟨-, -, r, -, rfl⟩ | ⟨-, -, rfl⟩ := takeEdge_cases h
  case inl => exact takeReset_port s
  case inr.inl => exact exec_port hexec
  case inr.inr.inl => exact raiseIllegal_port r s
  case inr.inr.inr => rfl

/-- Two states with the same edges to come are the same after a reset. -/
theorem takeReset_congr {s t : State} (hport : t.port = s.port) : takeReset t = takeReset s := by
  rw [takeReset_eq, takeReset_eq, hport]

/-- What follows a reset in a run starts from the reset state, whatever came before it: the edges before lead to some
state, and of that state the reset keeps the edges to come alone. -/
theorem runEdges_append_rst (before after : List Edge) {e : Edge} (s : State) (hr : e.rst = true) :
    runEdges (before ++ e :: after) s = runEdges after (takeReset s) := by
  induction before generalizing s with
  | nil => rw [List.nil_append, runEdges_cons, takeEdge_of_rst s hr, andThen_next]
  | cons e' before ih =>
    obtain ⟨t, ht⟩ := takeEdge_answers e' s
    calc runEdges (e' :: before ++ e :: after) s
        = runEdges (before ++ e :: after) t := by rw [List.cons_append, runEdges_cons, ht, andThen_next]
      _ = runEdges after (takeReset t) := ih t
      _ = runEdges after (takeReset s) := by rw [takeReset_congr (takeEdge_port ht)]

/-- Settles O20: a run under a held reset is cut at its last edge, a reset with nothing after it. -/
theorem resetRestartsTheRun : Obligations.ResetRestartsTheRun := by
  refine ⟨fun es s hne hrst => ?held, fun before after e s hr => runEdges_append_rst before after s hr⟩
  have hlast : (es.getLast hne).rst = true := hrst _ (List.getLast_mem hne)
  calc runEdges es s
      = runEdges (es.dropLast ++ [es.getLast hne]) s := by rw [List.dropLast_append_getLast hne]
    _ = .next (takeReset s) := runEdges_append_rst es.dropLast [] s hlast

/-! ### Idle edges -/

/-- Settles O21, by induction on the edges: an edge that is kept is taken by both runs, an idle edge leaves the first
run where the second one is. -/
theorem idleEdgesLeaveNoTrace : Obligations.IdleEdgesLeaveNoTrace := by
  refine ⟨fun c s => takeEdge_of_idle s rfl rfl, fun es => ?_⟩
  induction es with
  | nil => exact fun s => rfl
  | cons e es ih =>
    intro s
    cases hkept : e.rst || e.cmdValid with
    | true =>
      rw [List.filter_cons, hkept, if_pos rfl, runEdges_cons, runEdges_cons]
      exact andThen_congr fun t _ => ih t
    | false =>
      obtain ⟨hr, hv⟩ := Bool.or_eq_false_iff.mp hkept
      rw [List.filter_cons, hkept, if_neg Bool.false_ne_true, runEdges_cons, takeEdge_of_idle s hr hv, andThen_next]
      exact ih s

end Sys2Proof.Machine

/-! Proofs about the machine over the edges State holds (log entry 1; 30_encoding.md section 1, 70_reset_and_hazards.md
section 4): what a step takes, a step and a run of steps against the spec's edges, and the invariant of a clean machine. -/

namespace Sys2Proof.Machine

/-! ### What a step takes -/

theorem step_of_nil {s : State} (hport : s.port = []) : step s = .next s := by
  rw [step, fetchEdge_of_nil hport, takeEdge_idle]

theorem step_of_cons {s : State} {e : Edge} {rest : List Edge} (hport : s.port = e :: rest) :
    step s = takeEdge e (s.setPort rest) := by
  rw [step, fetchEdge_of_cons hport]

theorem step_pushEdge (e : Edge) (s : State) : step (pushEdge e s) = takeEdge e s := by
  rw [step, fetchEdge_pushEdge]

/-- Settles O32: the two cases of what the host has left to drive. -/
theorem stepTakesTheEdgeInFront : Obligations.StepTakesTheEdgeInFront :=
  ⟨fun _ => step_of_nil, fun _ _ _ => step_of_cons⟩

/-- Settles O33: the edge in front is accepted, and accepting a command's word is the command's meaning. -/
theorem stepRunsTheDecodedCommand : Obligations.StepRunsTheDecodedCommand :=
  fun _ _ _ _ => step_of_command

/-! ### A word of the opcode table at the next edge -/

theorem tableWord_of_lt {w : Nat} (hw : w < 65536) : tableWord 16 w = some (BitVec.ofNat 16 w) := by
  have hmod : w % 2 ^ 16 = w := Nat.mod_eq_of_lt hw
  rw [tableWord, hmod, if_pos hw]

theorem instr?_eq_some_iff {v : Decoded} {i : Instr} : v.instr? = some i ↔ v = .command i := by
  cases v <;> simp [Decoded.instr?]

/-- Decoding a table word that fits 16 bits is decoding it as a command word. -/
theorem decodeTableWord_eq_some_iff {w : Nat} (hw : w < 65536) {i : Instr} :
    decodeTableWord 16 w = some i ↔ decode (BitVec.ofNat 16 w) = .command i := by
  simp only [decodeTableWord, tableWord_of_lt hw, instr?_eq_some_iff]

/-- Placing a table word that fits 16 bits puts it in front as a command (log entry 2). -/
theorem withFetchWord_of_lt {w : Nat} (hw : w < 65536) (s : State) :
    s.withFetchWord 16 w = pushEdge (Edge.command (BitVec.ofNat 16 w)) s := by
  simp only [State.withFetchWord, tableWord_of_lt hw]

/-- Settles O34: the word stands in front as a command, and the step takes it off again and accepts it. -/
theorem placedWordRunsNext : Obligations.PlacedWordRunsNext := by
  intro s w i hw hi
  have hd : decode (BitVec.ofNat 16 w) = .command i := (decodeTableWord_eq_some_iff hw).mp hi
  refine ⟨hd, ?_⟩
  calc step (s.withFetchWord 16 w)
      = step (pushEdge (Edge.command (BitVec.ofNat 16 w)) s) := by rw [withFetchWord_of_lt hw]
    _ = acceptWord (BitVec.ofNat 16 w) s := by rw [step_pushEdge, takeEdge_command]
    _ = exec i s := acceptWord_command s hd

/-! ### Runs of the machine -/

/-- Every step answers a next state, in every state: an edge does, and so does waiting for one. -/
theorem step_answers (s : State) : ∃ t, step s = .next t := by
  cases hport : s.port with
  | nil => exact ⟨s, step_of_nil hport⟩
  | cons e rest =>
    rw [step_of_cons hport]
    exact takeEdge_answers e (s.setPort rest)

/-- The host's run goes on from the state its first step answers. -/
theorem core_run_succ_of_step {n : Nat} {s t : State} (h : step s = .next t) :
    Host.Core.run Sys2Proof.core (n + 1) s = Host.Core.run Sys2Proof.core n t :=
  (core_run_succ n s).trans (congrArg (andThen · (Host.Core.run Sys2Proof.core n)) h)

/-- Settles O35, by induction on the number of steps. -/
theorem noRunEverStops : Obligations.NoRunEverStops := by
  intro n
  induction n with
  | zero => exact fun s => ⟨s, rfl⟩
  | succ n ih =>
    intro s
    obtain ⟨t, ht⟩ := step_answers s
    obtain ⟨u, hu⟩ := ih t
    exact ⟨u, (core_run_succ_of_step ht).trans hu⟩

/-- A command does the same whatever edges are to come. -/
theorem exec_setPort {i : Instr} {s t : State} (es : List Edge) (h : exec i s = .next t) :
    exec i (s.setPort es) = .next (t.setPort es) := by
  cases i <;> (cases h; rfl)

/-- An edge does the same whatever edges are to come. -/
theorem takeEdge_setPort {e : Edge} {s t : State} (es : List Edge) (h : takeEdge e s = .next t) :
    takeEdge e (s.setPort es) = .next (t.setPort es) := by
  obtain ⟨hr, rfl⟩ | ⟨hr, hv, i, hd, hexec⟩ | ⟨hr, hv, r, hd, rfl⟩ | ⟨hr, hv, rfl⟩ := takeEdge_cases h
  case inl => exact takeEdge_of_rst _ hr
  case inr.inl => rw [takeEdge_of_valid _ hr hv, acceptWord_command _ hd, exec_setPort es hexec]
  case inr.inr.inl =>
    rw [takeEdge_of_valid _ hr hv, acceptWord_illegal _ hd]
    rfl
  case inr.inr.inr => exact takeEdge_of_idle _ hr hv

/-- The commuting step: loading the edges and stepping is taking the first edge and loading the others. -/
theorem step_loadEdges_cons {e : Edge} {s t : State} (es : List Edge) (h : takeEdge e s = .next t) :
    step (loadEdges (e :: es) s) = .next (loadEdges es t) := by
  calc step (loadEdges (e :: es) s)
      = takeEdge e (s.setPort (es ++ s.port)) := step_of_cons (loadEdges_port (e :: es) s)
    _ = .next (t.setPort (es ++ s.port)) := takeEdge_setPort _ h
    _ = .next (loadEdges es t) := by rw [loadEdges, takeEdge_port h]

/-- Settles O36, by induction on the edges: `step_loadEdges_cons` is the simulation's one step. -/
theorem machineRunsTheSpecsRun : Obligations.MachineRunsTheSpecsRun := by
  intro es
  induction es with
  | nil => exact fun s => rfl
  | cons e es ih =>
    intro s
    obtain ⟨t, ht⟩ := takeEdge_answers e s
    rw [runEdges_cons, ht, andThen_next, ← ih t]
    exact core_run_succ_of_step (step_loadEdges_cons es ht)

/-! ### The clean machine -/

/-- A harmless edge is one that accepts no illegal word: a reset wins over the word it drives (R201). -/
theorem harmless_iff {e : Edge} : e.harmless = true ↔ (e.rst = false → ¬ e.IsIllegal) := by
  cases hd : decode e.cmd <;> cases hr : e.rst <;>
    simp [Edge.harmless, Edge.IsIllegal, legalWord, Decoded.instr?, hd, hr]

theorem clean_iff {s : State} : s.clean = true ↔ s.err = false ∧ ∀ e ∈ s.port, e.harmless = true := by
  simp [State.clean, State.errorFree]

/-- A harmless edge leaves a clear `ERR` clear, since only an illegal word sets it (10_state.md R24). -/
theorem takeEdge_err_of_harmless {e : Edge} {s t : State} (he : e.harmless = true) (herr : s.err = false)
    (h : takeEdge e s = .next t) : t.err = false := by
  by_contra hset
  obtain ⟨onlyIllegalSets, -⟩ := onlyIllegalWordsAndResetWriteErr e s t h
  obtain ⟨hr, hillegal⟩ := onlyIllegalSets herr (Bool.eq_true_of_not_eq_false hset)
  exact harmless_iff.mp he hr hillegal

/-- A harmless edge keeps a clean machine clean: it touches no edge still to come. -/
theorem takeEdge_clean {e : Edge} {s t : State} (he : e.harmless = true) (hs : s.clean = true)
    (h : takeEdge e s = .next t) : t.clean = true := by
  obtain ⟨herr, hedges⟩ := clean_iff.mp hs
  rw [← takeEdge_port h] at hedges
  exact clean_iff.mpr ⟨takeEdge_err_of_harmless he herr h, hedges⟩

/-- Settles O37: with an edge in front, it is a harmless one, taken on a state that is clean with the rest to come. -/
theorem everyStepKeepsClean : Obligations.EveryStepKeepsClean := by
  intro s t hclean h
  obtain ⟨-, rfl⟩ | ⟨e, rest, hport, htake⟩ := step_cases h
  case inl => exact hclean
  case inr =>
    obtain ⟨herr, hedges⟩ := clean_iff.mp hclean
    rw [hport] at hedges
    obtain ⟨he, hrest⟩ := List.forall_mem_cons.mp hedges
    have hcleanRest : (s.setPort rest).clean = true := clean_iff.mpr ⟨herr, hrest⟩
    exact takeEdge_clean he hcleanRest htake

/-- Settles O38: `ERR` is 0 at reset, and no edge is to come. -/
theorem resetIsClean : Obligations.ResetIsClean :=
  clean_iff.mpr ⟨rfl, List.forall_mem_nil _⟩

end Sys2Proof.Machine
